-- ==== Sys2Proof/Word.lean ====
section
/-!
DEFINITION. The units the block computes on (00_scope.md R6): the byte, the 32-bit register word, the 16-bit code unit, and
the two field shapes of fixed length, four bytes and two bytes.
-/

namespace Sys2Proof

/-- A byte is 8 bits (00_scope.md R6). -/
abbrev Byte := BitVec 8

/-- The block's registers are 32 bits wide (00_scope.md R6). -/
abbrev Word := BitVec 32

/-- A 16-bit code unit of the classifier's output (43_classifier.md R221). -/
abbrev CodeUnit := BitVec 16

/-- A field of exactly 4 bytes, first byte first: a frame id, a size field, a CRC (00_scope.md R6). -/
structure Bytes4 where
  b0 : Byte
  b1 : Byte
  b2 : Byte
  b3 : Byte
deriving DecidableEq, Repr

/-- A field of exactly 2 bytes, first byte first: the frame flags (00_scope.md R6). -/
structure Bytes2 where
  b0 : Byte
  b1 : Byte
deriving DecidableEq, Repr

/-- The field as a byte list (00_scope.md R9). -/
def Bytes4.toList (b : Bytes4) : List Byte := [b.b0, b.b1, b.b2, b.b3]

/-- The field as a byte list (00_scope.md R9). -/
def Bytes2.toList (b : Bytes2) : List Byte := [b.b0, b.b1]

end Sys2Proof
end

