-- ==== Sys2Proof/Config.lean ====
section
/-!
DEFINITION. What an implementation fixes: the parameters of 00_scope.md R5, and the free values for memory contents that
the spec leaves unspecified (93_implementation_defined.md I13, I14).
-/

namespace Sys2Proof

/-- EXT_HDR_FLAG_MASK: exactly one of 0x40 and 0x02 (00_scope.md R5, 90_conflicts.md C5). -/
inductive ExtHdrFlagMask where
  | mask40
  | mask02
deriving DecidableEq, Repr

/-- The mask as the byte it stands for. -/
def ExtHdrFlagMask.bits : ExtHdrFlagMask → Byte
  | .mask40 => 0x40
  | .mask02 => 0x02

/-- The implementation parameters (00_scope.md R5). They are fixed for the life of the block (70_reset_and_hazards.md R292);
State carries them so that a claim about every state is a claim about every choice of them (log 1). -/
structure Config where
  /-- IN_CAP: bytes in IN. -/
  inCap : Nat
  /-- OUT_CAP: bytes in OUT. -/
  outCap : Nat
  /-- COUT_CAP: 16-bit code units in COUT. -/
  coutCap : Nat
  /-- MAX_FRAMES: frames the tag store holds. -/
  maxFrames : Nat
  /-- MAX_PAYLOAD: bytes one frame's payload may hold. -/
  maxPayload : Nat
  /-- APIC_PLACEHOLDER: what CLS emits for an "APIC" frame. -/
  apicPlaceholder : List CodeUnit
  /-- EXT_HDR_FLAG_MASK: the header flag that says an extended header is present. -/
  extHdrFlagMask : ExtHdrFlagMask
deriving DecidableEq, Repr

/-- The constraint column of 00_scope.md R5. -/
structure Config.Wf (c : Config) : Prop where
  inCap_pos : 1 ≤ c.inCap
  inCap_le : c.inCap ≤ 2 ^ 32 - 1
  outCap_pos : 1 ≤ c.outCap
  outCap_le : c.outCap ≤ 2 ^ 32 - 1
  coutCap_pos : 1 ≤ c.coutCap
  coutCap_le : c.coutCap ≤ 2 ^ 32 - 1
  maxFrames_pos : 1 ≤ c.maxFrames
  maxFrames_le : c.maxFrames ≤ 2 ^ 24
  maxPayload_le : c.maxPayload ≤ 2 ^ 32 - 1
  placeholder_fits : c.apicPlaceholder.length ≤ c.coutCap

/-- DESIGN CHOICE (log 1): the parameters State.reset carries. R5 leaves every one OPEN but the mask, whose default is
0x40; the sizes are the smallest that the conventions of 95_test_vectors.md allow, and no statement rests on them. -/
def Config.default : Config where
  inCap := 4096
  outCap := 4096
  coutCap := 4096
  maxFrames := 16
  maxPayload := 4096
  apicPlaceholder := []
  extHdrFlagMask := .mask40

/-- FREE VALUE (log 4): the byte an IN cell holds that nothing has written since reset number `resets`
(70_reset_and_hazards.md R290, 93_implementation_defined.md I13: any value). -/
opaque Config.unwrittenIn (resets addr : Nat) : Byte

/-- FREE VALUE (log 5): the byte a host read of the IN cell `addr`, at or past IN_LEN and holding `held`, returns since reset number
`resets` (93_implementation_defined.md I14: any value). It depends on nothing that a read changes, so reading again gives the same byte
(20_memory.md R71). -/
opaque Config.unspecifiedIn (resets addr : Nat) (held : Byte) : Byte

/-- FREE VALUE (log 5): the byte the `n`-th read of an unspecified OUT cell returns (20_memory.md R62,
93_implementation_defined.md I14: any value). -/
opaque Config.unspecifiedOut (n : Nat) : Byte

/-- FREE VALUE (log 5): the unit the `n`-th read of an unspecified COUT cell returns (20_memory.md R63,
93_implementation_defined.md I14: any value). -/
opaque Config.unspecifiedCout (n : Nat) : CodeUnit

end Sys2Proof
end

