-- ==== Sys2Proof/Syntax.lean ====
section
/-!
DEFINITION. The eight commands (30_encoding.md R92), one constructor per row of spec/opcode_table.json.
-/

namespace Sys2Proof

/-- A command of the block. `k` is the 24-bit frame index of FWR and CLS (30_encoding.md R91); the others take no operand (R93). -/
inductive Instr where
  /-- SSDEC: decode the synchsafe field in ARG0 (40_synchsafe.md R121). -/
  | ssdec
  /-- SSENC: encode ARG0 as a synchsafe field (40_synchsafe.md R124). -/
  | ssenc
  /-- FRD: read one frame from IN (41_frame_codec.md R141). -/
  | frd
  /-- FWR k: append FRAME[k] to OUT (41_frame_codec.md R145). -/
  | fwr (k : Nat)
  /-- TRD: read a whole tag from IN (42_tag_codec.md R172). -/
  | trd
  /-- TWR: append the whole tag to OUT (42_tag_codec.md R186). -/
  | twr
  /-- CLS k: classify and render FRAME[k] into COUT (43_classifier.md R222). -/
  | cls (k : Nat)
  /-- TCLR: empty the tag store (42_tag_codec.md R195). -/
  | tclr
deriving DecidableEq, Repr

end Sys2Proof
end

