-- ==== Sys2Proof/WellFormed.lean ====
section
/-!
DEFINITION. Which instruction terms a command word can spell: the one check is the width of the frame index
(30_encoding.md R91).
-/

namespace Sys2Proof

/-- The operand field OPND: the frame index of FWR and CLS, 0 for every other command (30_encoding.md R90, R93). -/
def Instr.operand : Instr → Nat
  | .ssdec => 0
  | .ssenc => 0
  | .frd => 0
  | .fwr k => k
  | .trd => 0
  | .twr => 0
  | .cls k => k
  | .tclr => 0

/-- An instruction is well formed when its operand fits the 24-bit field: 0 <= k <= 2^24 - 1 (30_encoding.md R91). -/
abbrev Instr.WellFormed (i : Instr) : Prop := i.operand < 2 ^ 24

end Sys2Proof
end

