-- ==== Sys2Proof/Decode.lean ====
section
/-!
DEFINITION. The command word: decoding, total on every 32-bit word (30_encoding.md R96), and encoding (R92, R97).
The check k < N of R96 needs the tag store, so it stands with the meanings of FWR and CLS (Operands.lean, withFrame); it is still the
first check those commands make (60_exceptions.md R270).
-/

namespace Sys2Proof

/-- Why a word spells no command, whatever the state (30_encoding.md R93, R94). -/
inductive DecodeReject where
  /-- OP = 0x00 or 0x09 to 0xFF (30_encoding.md R94). -/
  | reservedOpcode
  /-- OPND != 0 on a command that takes none (30_encoding.md R93). -/
  | nonZeroOperand
deriving DecidableEq, Repr

/-- IllegalCommand's reason code (60_exceptions.md R265); reason 2, a frame index >= N, is not a decode rejection. -/
def DecodeReject.reason : DecodeReject → Nat
  | .reservedOpcode => 1
  | .nonZeroOperand => 3

/-- OP: bits [7:0] of the command word (30_encoding.md R90). -/
def opcodeField (w : Word) : Nat := w.toNat % 2 ^ 8

/-- OPND: bits [31:8] of the command word, zero-extended (30_encoding.md R90, R91). -/
def operandField (w : Word) : Nat := w.toNat / 2 ^ 8

/-- A command that takes no operand: OPND must be 0 (30_encoding.md R93). -/
def noOperand (k : Nat) (i : Instr) : Except DecodeReject Instr :=
  if k = 0 then .ok i else .error .nonZeroOperand

/-- The decode procedure of 30_encoding.md R96, less its k < N test. -/
def decode (w : Word) : Except DecodeReject Instr :=
  match opcodeField w with
  | 0x01 => noOperand (operandField w) .ssdec
  | 0x02 => noOperand (operandField w) .ssenc
  | 0x03 => noOperand (operandField w) .frd
  | 0x04 => .ok (.fwr (operandField w))
  | 0x05 => noOperand (operandField w) .trd
  | 0x06 => noOperand (operandField w) .twr
  | 0x07 => .ok (.cls (operandField w))
  | 0x08 => noOperand (operandField w) .tclr
  | _ => .error .reservedOpcode

/-- The opcode of each command (30_encoding.md R92). -/
def Instr.opcode : Instr → Nat
  | .ssdec => 0x01
  | .ssenc => 0x02
  | .frd => 0x03
  | .fwr _ => 0x04
  | .trd => 0x05
  | .twr => 0x06
  | .cls _ => 0x07
  | .tclr => 0x08

/-- A command assembles to (k << 8) | OP (30_encoding.md R97). -/
def encode (i : Instr) : Word := BitVec.ofNat 32 (2 ^ 8 * i.operand + i.opcode)

/-- What the decoder reads from a command of `nbits` bits `w`, the bits above them zero. Every command is one 32-bit word
(30_encoding.md R95), so the table's numbering is the word's own. -/
def decodeTableWord (nbits w : Nat) : Option Instr :=
  match decode (BitVec.ofNat 32 (w % 2 ^ nbits)) with
  | .ok i => some i
  | .error _ => none

end Sys2Proof
end

