-- ==== Sys2Proof/Machine/State.lean ====
section
/-!
DEFINITION. The state of the block (10_state.md, 20_memory.md R60), the host's half of it, the reasons a step can stop, and the
state after reset (70_reset_and_hazards.md R290). Plain data throughout.
-/

namespace Sys2Proof.Machine

/-- A frame record (10_state.md R38). Its size is the length of `data` (R39). -/
structure Frame where
  /-- The 4 id bytes; any values are legal. -/
  id : Bytes4
  /-- The 2 flags bytes, stored and written verbatim. -/
  flags : Bytes2
  /-- The payload. -/
  data : List Byte
  /-- The terminator byte (10_state.md R40), read by CLS only. -/
  term : Byte
deriving DecidableEq, Repr

/-- STATUS (10_state.md R22). Bits [31:7] read as zero and hold nothing. -/
structure Status where
  /-- ERR [3:0]: the outcome code of the last command. -/
  err : BitVec 4
  /-- PADDET [4]: the last successful TRD found padding. -/
  paddet : Bool
  /-- ERRS [5]: sticky error summary. -/
  errs : Bool
  /-- BUSY [6]: a command executes. A command is one step, so no step leaves it set (70_reset_and_hazards.md R300, log 9). -/
  busy : Bool
deriving DecidableEq, Repr

/-- HDR0 (10_state.md R30). Bits [31:24] read as zero and hold nothing. -/
structure Hdr0 where
  /-- VER_MAJOR [7:0]. -/
  verMajor : Byte
  /-- VER_MINOR [15:8]. -/
  verMinor : Byte
  /-- HFLAGS [23:16]. -/
  hflags : Byte
deriving DecidableEq, Repr

/-- EXT_CTRL (10_state.md R33). Bits [31:17] read as zero and hold nothing. -/
structure ExtCtrl where
  /-- EXT_FLAGS [15:0]; bit 15 says a CRC is present. -/
  flags : BitVec 16
  /-- EXT_PRESENT [16]. -/
  present : Bool
deriving DecidableEq, Repr

/-- The errors a command can raise, with the facts their information values report (60_exceptions.md R260). Each becomes a NEXT state
through `raise` (Ops.lean); none stops the machine. -/
inductive CmdError where
  /-- NotATag(tag start). -/
  | notATag (start : Nat)
  /-- CorruptTag(stream address of the structure, bytes it needed). -/
  | corruptTag (addr need : Nat)
  /-- TruncatedStream(address of the first missing field, bytes it needed). -/
  | truncatedStream (addr need : Nat)
  /-- EncodingRange(the value that does not fit). -/
  | encodingRange (value : Nat)
  /-- IllegalCommand(the command word, reason). -/
  | illegalCommand (word : Word) (reason : Nat)
  /-- CapacityExceeded(which limit, amount needed). -/
  | capacityExceeded (limit amount : Nat)
deriving DecidableEq, Repr

/-- One access of the host, or its branch on STATUS (10_state.md R20, R41; 20_memory.md R60; 30_encoding.md R98;
70_reset_and_hazards.md R293). -/
inductive HostAccess where
  /-- RREG n. -/
  | readReg (n : Nat)
  /-- WREG n, v; n = 0 issues the command v encodes (10_state.md R21). -/
  | writeReg (n : Nat) (v : Word)
  /-- Read IN[a]. -/
  | readIn (a : Nat)
  /-- IN[a] <- b. -/
  | writeIn (a : Nat) (b : Byte)
  /-- Read OUT[a]. -/
  | readOut (a : Nat)
  /-- Read COUT[a]. -/
  | readCout (a : Nat)
  /-- HostReadFrame(k). -/
  | readFrame (k : Nat)
  /-- HostWriteFrame(k, id, flags, data, term). -/
  | writeFrame (k : Nat) (id flags data : List Byte) (term : Byte)
  /-- HostAppendFrame(id, flags, data, term). -/
  | appendFrame (id flags data : List Byte) (term : Byte)
  /-- BRERR label: read STATUS and go on at place `label` of the listing when ERR != 0. -/
  | brErr (label : Nat)
  /-- The host's reset signal. -/
  | resetSignal
deriving DecidableEq, Repr

/-- What a host read returns. -/
inductive HostValue where
  | word (w : Word)
  | byte (b : Byte)
  | unit (u : CodeUnit)
  | frame (f : Frame)
deriving DecidableEq, Repr

/-- Reasons the machine stops with a fault. No instruction raises one. -/
inductive Fault where
  /-- A host read of IN, OUT or COUT at or past the space's capacity, an address that does not exist (20_memory.md R60, R64).
  Raised by the host accesses readIn, readOut and readCout. Safe: the model stops where the spec gives the host no such access (log 6). -/
  | noSuchAddress
deriving DecidableEq, Repr

/-- Reasons the machine refuses to go on. -/
inductive Refusal where
  /-- The instruction has no meaning yet. Raised by the arms of exec that have none (there is no such arm). Safe. -/
  | notModelled (mnemonic : String)
  /-- A host access while STATUS.BUSY = 1, a host contract violation (70_reset_and_hazards.md R300,
  93_implementation_defined.md I21: refuse). Raised by every host access but the reset signal. Safe (log 7). -/
  | hostAccessWhileBusy
  /-- A store operation whose condition fails, a move the model does not give the host (10_state.md R41,
  93_implementation_defined.md I21: refuse). Raised by readFrame, writeFrame and appendFrame. Safe (log 8). -/
  | storeOperationCondition
deriving DecidableEq, Repr

/-- The state of the block and its host. FCOUNT (register 9) is the length of `frames` (10_state.md R29). -/
structure State where
  /-- The implementation parameters; no step changes them (70_reset_and_hazards.md R292, log 1). -/
  cfg : Config
  /-- CMD, register 0. -/
  cmd : Word
  /-- STATUS, register 1. -/
  status : Status
  /-- ARG0, register 2. -/
  arg0 : Word
  /-- RES0, register 3. -/
  res0 : Word
  /-- RES1, register 4. -/
  res1 : Word
  /-- RPTR, register 5. -/
  rptr : Word
  /-- IN_LEN, register 6. -/
  inLen : Word
  /-- OUT_LEN, register 7. -/
  outLen : Word
  /-- COUT_LEN, register 8. -/
  coutLen : Word
  /-- HDR0, register 10. -/
  hdr0 : Hdr0
  /-- HDR_SIZE, register 11. -/
  hdrSize : Word
  /-- EXT_HSIZE, register 12. -/
  extHsize : Word
  /-- EXT_CTRL, register 13. -/
  extCtrl : ExtCtrl
  /-- EXT_PAD, register 14. -/
  extPad : Word
  /-- EXT_CRC, register 15. -/
  extCrc : Word
  /-- FRAME[0 .. N-1] (10_state.md R37). -/
  frames : List Frame
  /-- IN: the cells written since reset, addresses strictly rising (20_memory.md R61). -/
  inMem : List Host.Cell
  /-- OUT, likewise (20_memory.md R62). -/
  outMem : List Host.Cell
  /-- COUT, likewise, in 16-bit units (20_memory.md R63). -/
  coutMem : List (Nat × CodeUnit)
  /-- The model's own: the host's listing of accesses (log 2). -/
  hostProg : List HostAccess
  /-- The model's own: the host's place in its listing (log 2). -/
  hostPos : Nat
  /-- The model's own: what the host's last read returned (log 3). -/
  hostSeen : Option HostValue
  /-- The model's own: how many reset signals there have been, which picks the free values of unwritten IN cells (log 4). -/
  resets : Nat
  /-- The model's own: how many unspecified OUT and COUT cells the host has read, which picks their free values (log 5). -/
  freeReads : Nat
deriving DecidableEq, Repr

/-- The state after reset of a block with parameters `c` (70_reset_and_hazards.md R290): every register 0, the store empty,
the memories unspecified (nothing listed). -/
def State.resetWith (c : Config) : State where
  cfg := c
  cmd := 0
  status := { err := 0, paddet := false, errs := false, busy := false }
  arg0 := 0
  res0 := 0
  res1 := 0
  rptr := 0
  inLen := 0
  outLen := 0
  coutLen := 0
  hdr0 := { verMajor := 0, verMinor := 0, hflags := 0 }
  hdrSize := 0
  extHsize := 0
  extCtrl := { flags := 0, present := false }
  extPad := 0
  extCrc := 0
  frames := []
  inMem := []
  outMem := []
  coutMem := []
  hostProg := []
  hostPos := 0
  hostSeen := none
  resets := 0
  freeReads := 0

/-- The state after reset, for the parameters that log 1 names. -/
def State.reset : State := State.resetWith Config.default

end Sys2Proof.Machine
end

