-- ==== Sys2Proof/Machine/Bytes.lean ====
section
/-!
DEFINITION. Byte order (20_memory.md R65 to R68), the helpers of 00_scope.md R9 and the synchsafe functions of 40_synchsafe.md R120.
Values are exact natural numbers (00_scope.md R8).
-/

namespace Sys2Proof.Machine

/-- be16 (00_scope.md R9). -/
def be16 (b : Bytes2) : Nat := 2 ^ 8 * b.b0.toNat + b.b1.toNat

/-- be32 (00_scope.md R9): the first byte is the most significant (20_memory.md R65). -/
def be32 (b : Bytes4) : Nat :=
  2 ^ 24 * b.b0.toNat + 2 ^ 16 * b.b1.toNat + 2 ^ 8 * b.b2.toNat + b.b3.toNat

/-- be16bytes (00_scope.md R9), for v < 2^16. -/
def be16bytes (v : Nat) : Bytes2 := ⟨BitVec.ofNat 8 (v / 2 ^ 8), BitVec.ofNat 8 v⟩

/-- be32bytes (00_scope.md R9), for v < 2^32. -/
def be32bytes (v : Nat) : Bytes4 :=
  ⟨BitVec.ofNat 8 (v / 2 ^ 24), BitVec.ofNat 8 (v / 2 ^ 16), BitVec.ofNat 8 (v / 2 ^ 8), BitVec.ofNat 8 v⟩

/-- le16 (00_scope.md R9): a UTF-16LE code unit, low byte first (20_memory.md R67). -/
def le16 (lo hi : Byte) : CodeUnit := BitVec.ofNat 16 (lo.toNat + 2 ^ 8 * hi.toNat)

/-- zext_16 of a byte: the Latin-1 mapping (43_classifier.md R230). -/
def latin1 (b : Byte) : CodeUnit := BitVec.ofNat 16 b.toNat

/-- allzero (00_scope.md R9). -/
def allZero (xs : List Byte) : Bool := xs.all (· == 0)

/-- Four stream bytes held in a register, the first in [31:24] (20_memory.md R68). -/
def pack4 (b : Bytes4) : Word := BitVec.ofNat 32 (be32 b)

/-- The four stream bytes a register holds (20_memory.md R68). -/
def unpack4 (w : Word) : Bytes4 := be32bytes w.toNat

/-- The 7 value bits of a synchsafe byte: bits [6:0] (30_encoding.md R103). -/
def low7 (b : Byte) : Nat := b.toNat % 2 ^ 7

/-- Bit 7 of a synchsafe byte. -/
def topBit (b : Byte) : Nat := b.toNat / 2 ^ 7

/-- ss_decode (40_synchsafe.md R120); bit 7 of every byte is dropped (R122). -/
def ssDecode (b : Bytes4) : Nat :=
  2 ^ 21 * low7 b.b0 + 2 ^ 14 * low7 b.b1 + 2 ^ 7 * low7 b.b2 + low7 b.b3

/-- ss_encode (40_synchsafe.md R120), for x < 2^28. -/
def ssEncode (x : Nat) : Bytes4 :=
  ⟨BitVec.ofNat 8 (x / 2 ^ 21 % 2 ^ 7), BitVec.ofNat 8 (x / 2 ^ 14 % 2 ^ 7),
    BitVec.ofNat 8 (x / 2 ^ 7 % 2 ^ 7), BitVec.ofNat 8 (x % 2 ^ 7)⟩

/-- SSDEC's RES1: b0's bit 7 in bit 3, down to b3's in bit 0 (40_synchsafe.md R121). -/
def topBits (b : Bytes4) : Nat :=
  2 ^ 3 * topBit b.b0 + 2 ^ 2 * topBit b.b1 + 2 * topBit b.b2 + topBit b.b3

/-- The id of a frame whose 4 id bytes the host gives as a list; none unless there are exactly 4 (10_state.md R38, R41). -/
def bytes4? : List Byte → Option Bytes4
  | [a, b, c, d] => some ⟨a, b, c, d⟩
  | _ => none

/-- The flags of a frame whose 2 flags bytes the host gives as a list; none unless there are exactly 2 (10_state.md R38, R41). -/
def bytes2? : List Byte → Option Bytes2
  | [a, b] => some ⟨a, b⟩
  | _ => none

/-- "ID3" (30_encoding.md R100, 00_scope.md R7). -/
def id3Bytes : List Byte := [0x49, 0x44, 0x33]

/-- The id "APIC" (43_classifier.md R224). -/
def apicId : Bytes4 := ⟨0x41, 0x50, 0x49, 0x43⟩

end Sys2Proof.Machine
end

