-- ==== Sys2Proof/Machine/Flags.lean ====
section
/-!
DEFINITION. STATUS: the error codes and their information values (60_exceptions.md R260), the flag updates (10_state.md R22, R46) and the
register words of the three registers with fields.
-/

namespace Sys2Proof.Machine

/-- The value of STATUS.ERR (60_exceptions.md R260). -/
def CmdError.code : CmdError → BitVec 4
  | .notATag _ => 1
  | .corruptTag _ _ => 2
  | .truncatedStream _ _ => 3
  | .encodingRange _ => 4
  | .illegalCommand _ _ => 5
  | .capacityExceeded _ _ => 6

/-- What RES0 reports (60_exceptions.md R260), before saturation. -/
def CmdError.info0 : CmdError → Nat
  | .notATag start => start
  | .corruptTag addr _ => addr
  | .truncatedStream addr _ => addr
  | .encodingRange value => value
  | .illegalCommand word _ => word.toNat
  | .capacityExceeded limit _ => limit

/-- What RES1 reports (60_exceptions.md R260), before saturation. -/
def CmdError.info1 : CmdError → Nat
  | .notATag _ => 0
  | .corruptTag _ need => need
  | .truncatedStream _ need => need
  | .encodingRange _ => 0
  | .illegalCommand _ reason => reason
  | .capacityExceeded _ amount => amount

/-- The error sets ERRS: codes 2 to 6, so every error but NotATag (10_state.md R22, 60_exceptions.md R261). -/
def CmdError.sticky (e : CmdError) : Bool := decide (2 ≤ e.code.toNat)

/-- STATUS after a command that raises `e` (60_exceptions.md R268): PADDET and BUSY keep their values, ERRS is never cleared. -/
def Status.afterError (st : Status) (e : CmdError) : Status :=
  { st with err := e.code, errs := st.errs || e.sticky }

/-- STATUS after a command that succeeds: ERR <- 0 (00_scope.md R12). -/
def Status.afterSuccess (st : Status) : Status := { st with err := 0 }

/-- STATUS as the host reads it: ERR | PADDET<<4 | ERRS<<5 | BUSY<<6, [31:7] zero (10_state.md R22). -/
def Status.word (st : Status) : Word :=
  BitVec.ofNat 32 (st.err.toNat + 2 ^ 4 * st.paddet.toNat + 2 ^ 5 * st.errs.toNat + 2 ^ 6 * st.busy.toNat)

/-- HDR0 as the host reads it, [31:24] zero (10_state.md R30). -/
def Hdr0.word (h : Hdr0) : Word :=
  BitVec.ofNat 32 (h.verMajor.toNat + 2 ^ 8 * h.verMinor.toNat + 2 ^ 16 * h.hflags.toNat)

/-- HDR0 after a host write: bits [31:24] of the value are ignored (10_state.md R30). -/
def Hdr0.ofWord (v : Word) : Hdr0 where
  verMajor := BitVec.ofNat 8 v.toNat
  verMinor := BitVec.ofNat 8 (v.toNat / 2 ^ 8)
  hflags := BitVec.ofNat 8 (v.toNat / 2 ^ 16)

/-- EXT_CTRL as the host reads it, [31:17] zero (10_state.md R33). -/
def ExtCtrl.word (x : ExtCtrl) : Word := BitVec.ofNat 32 (x.flags.toNat + 2 ^ 16 * x.present.toNat)

/-- EXT_CTRL after a host write: bits [31:17] of the value are ignored (10_state.md R33). -/
def ExtCtrl.ofWord (v : Word) : ExtCtrl where
  flags := BitVec.ofNat 16 v.toNat
  present := decide (v.toNat / 2 ^ 16 % 2 = 1)

/-- EXT_FLAGS[15] (mask 0x8000), DOC's "high bit = CRC present" (10_state.md R33). -/
def crcFlag (flags : BitVec 16) : Bool := decide (flags.toNat / 2 ^ 15 = 1)

end Sys2Proof.Machine
end

