-- ==== Sys2Proof/Machine/Ops.lean ====
section
/-!
DEFINITION. The shared operations: memories as canonical cell lists (20_memory.md R60 to R63), the memory primitives MemRead, MemWrite and
CoutWrite (00_scope.md R11), raising an error and committing a result (00_scope.md R12, 60_exceptions.md R268), and the bytes of a
frame record (30_encoding.md R110).
-/

namespace Sys2Proof.Machine

/-- A memory of w-bit cells: (address, value) pairs, one for each cell written since reset. An unlisted cell holds no value in the
list; what a read of it gives is said by the reading operation (log 4, log 5). -/
abbrev Memory (w : Nat) := List (Nat × BitVec w)

/-- The canonical form: addresses strictly rising. No entry equals what an unlisted cell reads as, since that is no value. -/
abbrev Memory.wf {w : Nat} (m : Memory w) : Prop := m.Pairwise (fun c d => c.1 < d.1)

/-- The value of cell `a`, none when it is unlisted. -/
def Memory.cell? {w : Nat} : Memory w → Nat → Option (BitVec w)
  | [], _ => none
  | (b, v) :: m, a => if a = b then some v else Memory.cell? m a

/-- Write one cell. -/
def Memory.set {w : Nat} : Memory w → Nat → BitVec w → Memory w
  | [], a, v => [(a, v)]
  | (b, u) :: m, a, v =>
    if a < b then (a, v) :: (b, u) :: m
    else if a = b then (a, v) :: m
    else (b, u) :: Memory.set m a v

/-- Write a run of cells from address `a` up. -/
def Memory.setRun {w : Nat} (m : Memory w) (a : Nat) : List (BitVec w) → Memory w
  | [] => m
  | v :: vs => Memory.setRun (Memory.set m a v) (a + 1) vs

/-- IN[a]; a cell nothing has written holds a free value (70_reset_and_hazards.md R290, I13, log 4). -/
def State.inByte (s : State) (a : Nat) : Byte :=
  (Memory.cell? s.inMem a).getD (Config.unwrittenIn s.resets a)

/-- MemRead(addr, n) (00_scope.md R11). -/
def State.memRead (s : State) (a : Nat) : Nat → List Byte
  | 0 => []
  | n + 1 => s.inByte a :: s.memRead (a + 1) n

/-- MemRead(addr, 4) as a field. -/
def State.memRead4 (s : State) (a : Nat) : Bytes4 :=
  ⟨s.inByte a, s.inByte (a + 1), s.inByte (a + 2), s.inByte (a + 3)⟩

/-- MemRead(addr, 2) as a field. -/
def State.memRead2 (s : State) (a : Nat) : Bytes2 := ⟨s.inByte a, s.inByte (a + 1)⟩

/-- MemWrite at OUT_LEN, and OUT_LEN moved past what is written (00_scope.md R11, 20_memory.md R62). -/
def State.appendOut (s : State) (bs : List Byte) : State :=
  { s with
    outMem := Memory.setRun s.outMem s.outLen.toNat bs
    outLen := BitVec.ofNat 32 (s.outLen.toNat + bs.length) }

/-- CoutWrite, and COUT_LEN set to the number of units (00_scope.md R11, 20_memory.md R63). -/
def State.replaceCout (s : State) (us : List CodeUnit) : State :=
  { s with
    coutMem := Memory.setRun s.coutMem 0 us
    coutLen := BitVec.ofNat 32 us.length }

/-- An information value in a 32-bit register: saturated at 0xFFFFFFFF (60_exceptions.md R267). -/
def saturate (n : Nat) : Word := if n < 2 ^ 32 then BitVec.ofNat 32 n else 0xFFFFFFFF

/-- `raise E(a, b)` (00_scope.md R12, 60_exceptions.md R268): the code, the two information values and the sticky summary, and nothing else. -/
def State.raise (s : State) (e : CmdError) : State :=
  { s with status := s.status.afterError e, res0 := saturate e.info0, res1 := saturate e.info1 }

/-- `commit` (00_scope.md R12): STATUS.ERR <- 0 on a state that holds the staged results. -/
def State.commit (s : State) : State := { s with status := s.status.afterSuccess }

/-- The two results of a command (10_state.md R24), below 2^32 in every state a run reaches (log 16). -/
def State.setResults (s : State) (r0 r1 : Nat) : State :=
  { s with res0 := BitVec.ofNat 32 r0, res1 := BitVec.ofNat 32 r1 }

/-- How every command ends (00_scope.md R12): with its staged results committed, or with its error raised on the state it started
from, so that nothing staged survives an error (60_exceptions.md R269). -/
def State.complete (s : State) (staged : Except CmdError State) : Host.Outcome State Fault Refusal :=
  match staged with
  | .ok t => .next t.commit
  | .error e => .next (s.raise e)

/-- frame_bytes (30_encoding.md R110). The term byte is never written. -/
def Frame.bytes (f : Frame) : List Byte :=
  f.id.toList ++ (be32bytes f.data.length).toList ++ f.flags.toList ++ f.data

/-- The bytes a frame occupies in a stream: 10 + size (30_encoding.md R102). -/
def Frame.extent (f : Frame) : Nat := 10 + f.data.length

/-- Append L bytes to OUT, or fail before anything is written when OUT would overflow (20_memory.md R62). -/
def State.tryAppendOut (s : State) (bs : List Byte) : Except CmdError State :=
  if s.outLen.toNat + bs.length > s.cfg.outCap then
    .error (.capacityExceeded 3 (s.outLen.toNat + bs.length))
  else .ok (s.appendOut bs)

end Sys2Proof.Machine
end

