-- ==== Sys2Proof/Machine/Operands.lean ====
section
/-!
DEFINITION. The operand forms: SSDEC's four bytes and SSENC's value in ARG0 (20_memory.md R68), the frame index of FWR and CLS
(30_encoding.md R91), and the frame record a stream address names (30_encoding.md R102).
-/

namespace Sys2Proof.Machine

/-- SSDEC's operand: the 4 field bytes in ARG0, b0 in [31:24] (40_synchsafe.md R121). -/
def State.arg0Bytes (s : State) : Bytes4 := unpack4 s.arg0

/-- SSENC's operand: ARG0 as an unsigned value (40_synchsafe.md R124). -/
def State.arg0Value (s : State) : Nat := s.arg0.toNat

/-- The frame operand of FWR k and CLS k: k < N is the decode check of 30_encoding.md R96, and `IllegalCommand(w, 2)` is raised when it
fails, w being the command word (log 11); otherwise the command goes on with FRAME[k]. -/
def State.withFrame (s : State) (k : Nat) (w : Word) (go : Frame → Except CmdError State) : Except CmdError State :=
  match s.frames[k]? with
  | some f => go f
  | none => .error (.illegalCommand w 2)

/-- The size field of the frame header at stream address `p` (30_encoding.md R102). -/
def State.frameSizeAt (s : State) (p : Nat) : Nat := be32 (s.memRead4 (p + 4))

/-- The frame record FRD and TRD store from the stream address `p`: term = 0x00 (10_state.md R40, 41_frame_codec.md R141). -/
def State.frameAt (s : State) (p : Nat) : Frame where
  id := s.memRead4 p
  flags := s.memRead2 (p + 8)
  data := s.memRead (p + 10) (s.frameSizeAt p)
  term := 0x00

end Sys2Proof.Machine
end

