-- ==== Sys2Proof/Machine/Classifier.lean ====
section
/-!
DEFINITION. CLS (43_classifier.md).
-/

namespace Sys2Proof.Machine

/-- Every complete byte pair as a UTF-16LE code unit, null units too; a lone last byte is dropped (43_classifier.md R225). -/
def pairUnits : List Byte → List CodeUnit
  | lo :: hi :: rest => le16 lo hi :: pairUnits rest
  | _ => []

/-- Rule 3's scan of a payload (43_classifier.md R227, R228). The flag says whether the scan is inside a UTF-16 run. Outside, FF FE opens a
run and any other byte is one Latin-1 unit; inside, a null unit is consumed and ends the run, and so do fewer than 2 remaining bytes,
which are dropped. -/
def scanUnits : Bool → List Byte → List CodeUnit
  | _, [] => []
  | false, [b] => [latin1 b]
  | false, b :: c :: rest =>
    if b = 0xFF ∧ c = 0xFE then scanUnits true rest else latin1 b :: scanUnits false (c :: rest)
  | true, [_] => []
  | true, lo :: hi :: rest =>
    if le16 lo hi = 0 then scanUnits false rest else le16 lo hi :: scanUnits true rest

/-- Rule 3 skips exactly one leading 0x00 (43_classifier.md R226). -/
def skipMarker : List Byte → List Byte
  | [] => []
  | b :: rest => if b = 0x00 then rest else b :: rest

/-- The payload begins 01 FF FE (43_classifier.md R225). -/
def legacyMarked : List Byte → Bool
  | b0 :: b1 :: b2 :: _ => decide (b0 = 0x01 ∧ b1 = 0xFF ∧ b2 = 0xFE)
  | _ => false

/-- The number of the rule that fires: the first whose condition holds (43_classifier.md R223). -/
def Frame.clsRule (f : Frame) : Nat :=
  if f.id = apicId then 1
  else if legacyMarked f.data then 2
  else if f.term = 0x00 then 3
  else 4

/-- What each rule renders (43_classifier.md R224, R225, R226 to R228, R229). -/
def Frame.render (placeholder : List CodeUnit) (f : Frame) : List CodeUnit :=
  if f.clsRule = 1 then placeholder
  else if f.clsRule = 2 then pairUnits (f.data.drop 3)
  else if f.clsRule = 3 then scanUnits false (skipMarker f.data)
  else f.data.map latin1

/-- CLS's staged results for the frame its index names (43_classifier.md R222). -/
def State.clsFrame (s : State) (f : Frame) : Except CmdError State :=
  let out := f.render s.cfg.apicPlaceholder
  if out.length > s.cfg.coutCap then .error (.capacityExceeded 4 out.length)
  else .ok ((s.replaceCout out).setResults out.length f.clsRule)

/-- CLS k (43_classifier.md R222). -/
def execCls (k : Nat) (s : State) : Host.Outcome State Fault Refusal :=
  s.complete (s.withFrame k (encode (.cls k)) s.clsFrame)

end Sys2Proof.Machine
end

