-- ==== Sys2Proof/Machine/FrameCodec.lean ====
section
/-!
DEFINITION. FRD and FWR (41_frame_codec.md).
-/

namespace Sys2Proof.Machine

/-- FRD's staged results, its checks in the pseudocode's order (41_frame_codec.md R141). -/
def State.frdStaged (s : State) : Except CmdError State :=
  let p := s.rptr.toNat
  let fsz := s.frameSizeAt p
  if p + 10 > s.inLen.toNat then .error (.truncatedStream p 10)
  else if p + 10 + fsz > s.inLen.toNat then .error (.truncatedStream (p + 10) fsz)
  else if s.frames.length ≥ s.cfg.maxFrames then .error (.capacityExceeded 1 (s.frames.length + 1))
  else if fsz > s.cfg.maxPayload then .error (.capacityExceeded 2 fsz)
  else .ok (({ s with
      frames := s.frames ++ [s.frameAt p]
      rptr := BitVec.ofNat 32 (p + 10 + fsz) } : State).setResults s.frames.length fsz)

/-- FRD (41_frame_codec.md R141). -/
def execFrd (s : State) : Host.Outcome State Fault Refusal := s.complete s.frdStaged

/-- FWR's staged results for the frame its index names (41_frame_codec.md R145). -/
def State.fwrFrame (s : State) (f : Frame) : Except CmdError State :=
  match s.tryAppendOut f.bytes with
  | .error e => .error e
  | .ok t => .ok (t.setResults f.extent t.outLen.toNat)

/-- FWR k (41_frame_codec.md R145). -/
def execFwr (k : Nat) (s : State) : Host.Outcome State Fault Refusal :=
  s.complete (s.withFrame k (encode (.fwr k)) s.fwrFrame)

end Sys2Proof.Machine
end

