-- ==== Sys2Proof/Machine/Synchsafe.lean ====
section
/-!
DEFINITION. SSDEC and SSENC (40_synchsafe.md).
-/

namespace Sys2Proof.Machine

/-- SSDEC's staged results (40_synchsafe.md R121). -/
def State.ssdecStaged (s : State) : Except CmdError State :=
  .ok (s.setResults (ssDecode s.arg0Bytes) (topBits s.arg0Bytes))

/-- SSDEC (40_synchsafe.md R121). -/
def execSsdec (s : State) : Host.Outcome State Fault Refusal := s.complete s.ssdecStaged

/-- SSENC's staged results (40_synchsafe.md R124): values from 2^28 up cannot be represented (R125). -/
def State.ssencStaged (s : State) : Except CmdError State :=
  if s.arg0Value ≥ 2 ^ 28 then .error (.encodingRange s.arg0Value)
  else .ok (s.setResults (be32 (ssEncode s.arg0Value)) 0)

/-- SSENC (40_synchsafe.md R124). -/
def execSsenc (s : State) : Host.Outcome State Fault Refusal := s.complete s.ssencStaged

end Sys2Proof.Machine
end

