-- ==== Sys2Proof/Machine/TagCodec.lean ====
section
/-!
DEFINITION. TRD, TWR and TCLR (42_tag_codec.md). TRD's three phases (R171) are three functions; each returns the error its own checks
raise, in the pseudocode's order.
-/

namespace Sys2Proof.Machine

/-- What TRD's header phase reads (42_tag_codec.md R173). -/
structure TagHeader where
  /-- The version bytes and the flags byte, verbatim. -/
  hdr0 : Hdr0
  /-- S, the decoded size. -/
  size : Nat
deriving DecidableEq, Repr

/-- What TRD's extended-header phase reads (42_tag_codec.md R176); all zero when there is none. -/
structure ExtHeader where
  ctrl : ExtCtrl
  hsize : Nat
  pad : Nat
  crc : Nat
  /-- extlen: 0, 10 or 14. -/
  len : Nat
deriving DecidableEq, Repr

/-- What TRD's frame loop leaves (42_tag_codec.md R172). -/
structure TagBody where
  /-- The frames read, in file order. -/
  frames : List Frame
  /-- Padding ended the loop. -/
  pad : Bool
  /-- p: the address after the last stored frame. -/
  pos : Nat
  /-- avail: the tag bytes not consumed. -/
  avail : Nat
deriving DecidableEq, Repr

/-- Frames read before the rest of the loop. -/
def TagBody.prepend (fs : List Frame) (b : TagBody) : TagBody := { b with frames := fs ++ b.frames }

/-- Phase 1, the header at `p` (42_tag_codec.md R173, R174). -/
def State.readTagHeader (s : State) (p : Nat) : Except CmdError TagHeader :=
  if ¬ (p + 3 ≤ s.inLen.toNat ∧ s.memRead p 3 = id3Bytes) then .error (.notATag p)
  else if p + 10 > s.inLen.toNat then .error (.truncatedStream p 10)
  else .ok {
    hdr0 := { verMajor := s.inByte (p + 3), verMinor := s.inByte (p + 4), hflags := s.inByte (p + 5) }
    size := ssDecode (s.memRead4 (p + 6)) }

/-- The extended-header flag of the header flags byte is set (42_tag_codec.md R176). -/
def State.extFlagSet (s : State) (hflags : Byte) : Bool := decide (hflags &&& s.cfg.extHdrFlagMask.bits ≠ 0)

/-- No extended header: every EXT register is 0 (42_tag_codec.md R178). -/
def ExtHeader.absent : ExtHeader :=
  { ctrl := { flags := 0, present := false }, hsize := 0, pad := 0, crc := 0, len := 0 }

/-- Phase 2, the extended header at `p` of a tag of size `size` (42_tag_codec.md R176). -/
def State.readExtHeader (s : State) (hflags : Byte) (size p : Nat) : Except CmdError ExtHeader :=
  if s.extFlagSet hflags = false then .ok ExtHeader.absent
  else if size < 10 then .error (.corruptTag p 10)
  else if p + 10 > s.inLen.toNat then .error (.truncatedStream p 10)
  else
    let flags := BitVec.ofNat 16 (be16 (s.memRead2 (p + 4)))
    let noCrc : ExtHeader :=
      { ctrl := { flags := flags, present := true }
        hsize := be32 (s.memRead4 p)
        pad := be32 (s.memRead4 (p + 6))
        crc := 0
        len := 10 }
    if crcFlag flags = false then .ok noCrc
    else if size < 14 then .error (.corruptTag (p + 10) 4)
    else if p + 14 > s.inLen.toNat then .error (.truncatedStream (p + 10) 4)
    else .ok { noCrc with crc := be32 (s.memRead4 (p + 10)), len := 14 }

/-- Phase 3, the frame loop (42_tag_codec.md R172, R179 to R181) at address `p` with `avail` tag bytes left and `n` frames already read. The
first argument bounds the iterations: floor(avail / 10) + 1 of them are enough (R182, log 17). -/
def State.readFrames (s : State) : Nat → Nat → Nat → Nat → Except CmdError TagBody
  | 0, p, avail, _ => .ok { frames := [], pad := false, pos := p, avail := avail }
  | fuel + 1, p, avail, n =>
    if avail = 0 then .ok { frames := [], pad := false, pos := p, avail := avail }
    else if avail < 10 then
      if p + min 4 avail > s.inLen.toNat then .error (.truncatedStream p (min 4 avail))
      else if allZero (s.memRead p (min 4 avail)) then .ok { frames := [], pad := true, pos := p, avail := avail }
      else .error (.corruptTag p 10)
    else if p + 10 > s.inLen.toNat then .error (.truncatedStream p 10)
    else if allZero (s.memRead4 p).toList then .ok { frames := [], pad := true, pos := p, avail := avail }
    else if 10 + s.frameSizeAt p > avail then .error (.corruptTag p (10 + s.frameSizeAt p))
    else if p + 10 + s.frameSizeAt p > s.inLen.toNat then .error (.truncatedStream (p + 10) (s.frameSizeAt p))
    else if n ≥ s.cfg.maxFrames then .error (.capacityExceeded 1 (n + 1))
    else if s.frameSizeAt p > s.cfg.maxPayload then .error (.capacityExceeded 2 (s.frameSizeAt p))
    else
      (s.readFrames fuel (p + 10 + s.frameSizeAt p) (avail - (10 + s.frameSizeAt p)) (n + 1)).map
        (TagBody.prepend [s.frameAt p])

/-- TRD's commit (42_tag_codec.md R178): the whole store is replaced. -/
def State.storeTag (s : State) (h : TagHeader) (e : ExtHeader) (b : TagBody) : State :=
  ({ s with
    hdr0 := h.hdr0
    hdrSize := BitVec.ofNat 32 h.size
    extHsize := BitVec.ofNat 32 e.hsize
    extCtrl := e.ctrl
    extPad := BitVec.ofNat 32 e.pad
    extCrc := BitVec.ofNat 32 e.crc
    frames := b.frames
    status := { s.status with paddet := b.pad }
    rptr := BitVec.ofNat 32 b.pos } : State).setResults (10 + h.size) (h.size - b.avail)

/-- TRD's staged results (42_tag_codec.md R172). -/
def State.trdStaged (s : State) : Except CmdError State :=
  match s.readTagHeader s.rptr.toNat with
  | .error e => .error e
  | .ok h =>
    match s.readExtHeader h.hdr0.hflags h.size (s.rptr.toNat + 10) with
    | .error e => .error e
    | .ok x =>
      match s.readFrames (h.size / 10 + 1) (s.rptr.toNat + 10 + x.len) (h.size - x.len) 0 with
      | .error e => .error e
      | .ok b => .ok (s.storeTag h x b)

/-- TRD (42_tag_codec.md R172). -/
def execTrd (s : State) : Host.Outcome State Fault Refusal := s.complete s.trdStaged

/-- The 10 header bytes TWR writes (42_tag_codec.md R187). -/
def State.headerBytes (s : State) : List Byte :=
  id3Bytes ++ [s.hdr0.verMajor, s.hdr0.verMinor, s.hdr0.hflags] ++ (ssEncode s.hdrSize.toNat).toList

/-- ext_bytes (42_tag_codec.md R187): written exactly when EXT_PRESENT = 1, whatever HFLAGS says (R188). -/
def State.extBytes (s : State) : List Byte :=
  if s.extCtrl.present = false then []
  else
    (be32bytes s.extHsize.toNat).toList ++ (be16bytes s.extCtrl.flags.toNat).toList ++ (be32bytes s.extPad.toNat).toList
      ++ (if crcFlag s.extCtrl.flags then (be32bytes s.extCrc.toNat).toList else [])

/-- frame_bytes of every frame, in sequence order (42_tag_codec.md R187). -/
def framesBytes (fs : List Frame) : List Byte := fs.flatMap Frame.bytes

/-- tag_bytes (42_tag_codec.md R187). No padding is written (R189). -/
def State.tagBytes (s : State) : List Byte := s.headerBytes ++ s.extBytes ++ framesBytes s.frames

/-- TWR's staged results (42_tag_codec.md R186). -/
def State.twrStaged (s : State) : Except CmdError State :=
  if s.hdrSize.toNat ≥ 2 ^ 28 then .error (.encodingRange s.hdrSize.toNat)
  else
    match s.tryAppendOut s.tagBytes with
    | .error e => .error e
    | .ok t => .ok (t.setResults s.tagBytes.length s.frames.length)

/-- TWR (42_tag_codec.md R186). -/
def execTwr (s : State) : Host.Outcome State Fault Refusal := s.complete s.twrStaged

/-- TCLR's staged results (42_tag_codec.md R195). -/
def State.tclrStaged (s : State) : Except CmdError State :=
  .ok (({ s with
    frames := []
    hdr0 := { verMajor := 0, verMinor := 0, hflags := 0 }
    hdrSize := 0
    extHsize := 0
    extCtrl := { flags := 0, present := false }
    extPad := 0
    extCrc := 0
    status := { s.status with paddet := false } } : State).setResults 0 0)

/-- TCLR (42_tag_codec.md R195). -/
def execTclr (s : State) : Host.Outcome State Fault Refusal := s.complete s.tclrStaged

end Sys2Proof.Machine
end

