-- ==== Sys2Proof/Machine/Dispatch.lean ====
section
/-!
DEFINITION. One arm per command (30_encoding.md R92).
-/

namespace Sys2Proof.Machine

def exec (i : Instr) (s : State) : Host.Outcome State Fault Refusal :=
  match i with
  | .ssdec => Sys2Proof.Machine.execSsdec s
  | .ssenc => Sys2Proof.Machine.execSsenc s
  | .frd => Sys2Proof.Machine.execFrd s
  | .fwr k => Sys2Proof.Machine.execFwr k s
  | .trd => Sys2Proof.Machine.execTrd s
  | .twr => Sys2Proof.Machine.execTwr s
  | .cls k => Sys2Proof.Machine.execCls k s
  | .tclr => Sys2Proof.Machine.execTclr s

end Sys2Proof.Machine
end

