-- ==== Sys2Proof/Machine/Registers.lean ====
section
/-!
DEFINITION. The control register map as the host sees it (10_state.md R20 to R36).
-/

namespace Sys2Proof.Machine

/-- A host read of register `n`; 16 and above read 0 (10_state.md R20, R36). -/
def State.readReg (s : State) (n : Nat) : Word :=
  match n with
  | 0 => s.cmd
  | 1 => s.status.word
  | 2 => s.arg0
  | 3 => s.res0
  | 4 => s.res1
  | 5 => s.rptr
  | 6 => s.inLen
  | 7 => s.outLen
  | 8 => s.coutLen
  | 9 => BitVec.ofNat 32 s.frames.length
  | 10 => s.hdr0.word
  | 11 => s.hdrSize
  | 12 => s.extHsize
  | 13 => s.extCtrl.word
  | 14 => s.extPad
  | 15 => s.extCrc
  | _ => 0

/-- RPTR <- min(v, IN_LEN) (10_state.md R25). -/
def State.writeRptr (s : State) (v : Word) : State :=
  { s with rptr := BitVec.ofNat 32 (min v.toNat s.inLen.toNat) }

/-- IN_LEN <- min(v, IN_CAP), and then RPTR <- min(RPTR, IN_LEN) (10_state.md R26). -/
def State.writeInLen (s : State) (v : Word) : State :=
  { s with
    inLen := BitVec.ofNat 32 (min v.toNat s.cfg.inCap)
    rptr := BitVec.ofNat 32 (min s.rptr.toNat (min v.toNat s.cfg.inCap)) }

/-- OUT_LEN is truncate-only (10_state.md R27). -/
def State.writeOutLen (s : State) (v : Word) : State :=
  if v.toNat ≤ s.outLen.toNat then { s with outLen := v } else s

/-- A host write of `v` to register `n` other than CMD. Read-only registers and numbers from 16 up ignore it (10_state.md R20, R36); CMD issues
a command and stands in HostPort.lean. -/
def State.writeReg (s : State) (n : Nat) (v : Word) : State :=
  match n with
  | 2 => { s with arg0 := v }
  | 5 => s.writeRptr v
  | 6 => s.writeInLen v
  | 7 => s.writeOutLen v
  | 10 => { s with hdr0 := Hdr0.ofWord v }
  | 11 => { s with hdrSize := v }
  | 12 => { s with extHsize := v }
  | 13 => { s with extCtrl := ExtCtrl.ofWord v }
  | 14 => { s with extPad := v }
  | 15 => { s with extCrc := v }
  | _ => s

end Sys2Proof.Machine
end

