-- ==== Sys2Proof/Machine/HostPort.lean ====
section
/-!
DEFINITION. The host's half of a step: issuing a command (10_state.md R21), the reads and writes of 20_memory.md R60, the store operations
of 10_state.md R41, the branch BRERR and the pseudo-operations of 30_encoding.md R98, and the reset signal
(70_reset_and_hazards.md R293).
-/

namespace Sys2Proof.Machine

/-- A host write of `w` to CMD: stores w and performs the command it encodes (10_state.md R21, log 12). A word that spells none
raises IllegalCommand (30_encoding.md R93, R94) and changes nothing else (60_exceptions.md R268). -/
def State.issue (s : State) (w : Word) : Host.Outcome State Fault Refusal :=
  match decode w with
  | .ok i => exec i { s with cmd := w }
  | .error r => .next (({ s with cmd := w } : State).raise (.illegalCommand w r.reason))

/-- A host read returns `v`. -/
def State.hostSees (s : State) (v : HostValue) : State := { s with hostSeen := some v }

/-- The byte a host read of IN[a] returns: below IN_LEN the byte IN holds (20_memory.md R61), from there on a free value
(93_implementation_defined.md I14, log 5). -/
def State.inByteRead (s : State) (a : Nat) : Byte :=
  if a < s.inLen.toNat then s.inByte a else Config.unspecifiedIn s.resets a (s.inByte a)

/-- Host read of IN[a], any address below IN_CAP (20_memory.md R60). It has no side effect on the block and is idempotent (R71). -/
def State.hostReadIn (s : State) (a : Nat) : Host.Outcome State Fault Refusal :=
  if a < s.cfg.inCap ∨ a < s.inLen.toNat then .next (s.hostSees (.byte (s.inByteRead a))) else .fault .noSuchAddress

/-- Host write of IN[a]; at IN_CAP and above it is not performed (20_memory.md R61). -/
def State.hostWriteIn (s : State) (a : Nat) (b : Byte) : State :=
  if a < s.cfg.inCap then { s with inMem := Memory.set s.inMem a b } else s

/-- A host read of an OUT cell that holds an unspecified byte: a free value, a fresh one each time (20_memory.md R62, I14, log 5). -/
def State.freeOutRead (s : State) : State :=
  ({ s with freeReads := s.freeReads + 1 } : State).hostSees (.byte (Config.unspecifiedOut s.freeReads))

/-- A host read of a COUT cell that holds an unspecified unit: a free value, a fresh one each time (20_memory.md R63, I14, log 5). -/
def State.freeCoutRead (s : State) : State :=
  ({ s with freeReads := s.freeReads + 1 } : State).hostSees (.unit (Config.unspecifiedCout s.freeReads))

/-- Host read of OUT[a] (20_memory.md R60, R62). Below OUT_LEN it is the byte written. -/
def State.hostReadOut (s : State) (a : Nat) : Host.Outcome State Fault Refusal :=
  if a < s.outLen.toNat then
    match Memory.cell? s.outMem a with
    | some b => .next (s.hostSees (.byte b))
    | none => .next s.freeOutRead
  else if a < s.cfg.outCap then .next s.freeOutRead
  else .fault .noSuchAddress

/-- Host read of COUT[a] (20_memory.md R60, R63). Below COUT_LEN it is the unit written. -/
def State.hostReadCout (s : State) (a : Nat) : Host.Outcome State Fault Refusal :=
  if a < s.coutLen.toNat then
    match Memory.cell? s.coutMem a with
    | some u => .next (s.hostSees (.unit u))
    | none => .next s.freeCoutRead
  else if a < s.cfg.coutCap then .next s.freeCoutRead
  else .fault .noSuchAddress

/-- HostReadFrame(k), for k < N (10_state.md R41). -/
def State.hostReadFrame (s : State) (k : Nat) : Host.Outcome State Fault Refusal :=
  match s.frames[k]? with
  | some f => .next (s.hostSees (.frame f))
  | none => .refused .storeOperationCondition

/-- The record the host gives, when it meets the length requirements of 10_state.md R41: 4 id bytes, 2 flags bytes and at most MAX_PAYLOAD
payload bytes. -/
def State.hostFrame? (s : State) (id flags data : List Byte) (term : Byte) : Option Frame :=
  match bytes4? id, bytes2? flags with
  | some i, some fl => if data.length ≤ s.cfg.maxPayload then some { id := i, flags := fl, data := data, term := term } else none
  | _, _ => none

/-- HostWriteFrame(k, id, flags, data, term), for k < N (10_state.md R41). -/
def State.hostWriteFrame (s : State) (k : Nat) (id flags data : List Byte) (term : Byte) : Host.Outcome State Fault Refusal :=
  match s.hostFrame? id flags data term with
  | some f => if k < s.frames.length then .next { s with frames := s.frames.set k f } else .refused .storeOperationCondition
  | none => .refused .storeOperationCondition

/-- HostAppendFrame(id, flags, data, term), for N < MAX_FRAMES (10_state.md R41). -/
def State.hostAppendFrame (s : State) (id flags data : List Byte) (term : Byte) : Host.Outcome State Fault Refusal :=
  match s.hostFrame? id flags data term with
  | some f =>
    if s.frames.length < s.cfg.maxFrames then .next { s with frames := s.frames ++ [f] } else .refused .storeOperationCondition
  | none => .refused .storeOperationCondition

/-- BRERR label: the host reads STATUS and goes on at `label` when ERR != 0 (30_encoding.md R98, log 13). -/
def State.hostBrErr (s : State) (label : Nat) : State :=
  let t := s.hostSees (.word s.status.word)
  if s.status.err = 0 then t else { t with hostPos := label }

/-- The reset signal (70_reset_and_hazards.md R290, R293): the block as after reset, with its parameters (R292) and with memory contents
unspecified anew; the host's own listing, place and last read are the host's and stay (log 15). -/
def State.hostReset (s : State) : State :=
  { State.resetWith s.cfg with
    hostProg := s.hostProg
    hostPos := s.hostPos
    hostSeen := s.hostSeen
    resets := s.resets + 1
    freeReads := s.freeReads }

/-- What one host access does to an idle block. -/
def State.perform (s : State) : HostAccess → Host.Outcome State Fault Refusal
  | .readReg n => .next (s.hostSees (.word (s.readReg n)))
  | .writeReg n v => if n = 0 then s.issue v else .next (s.writeReg n v)
  | .readIn a => s.hostReadIn a
  | .writeIn a b => .next (s.hostWriteIn a b)
  | .readOut a => s.hostReadOut a
  | .readCout a => s.hostReadCout a
  | .readFrame k => s.hostReadFrame k
  | .writeFrame k id flags data term => s.hostWriteFrame k id flags data term
  | .appendFrame id flags data term => s.hostAppendFrame id flags data term
  | .brErr label => .next (s.hostBrErr label)
  | .resetSignal => .next s.hostReset

/-- One host access: only the reset signal reaches a busy block (70_reset_and_hazards.md R300, R293, log 7). -/
def State.access (s : State) (a : HostAccess) : Host.Outcome State Fault Refusal :=
  if s.status.busy = true ∧ a ≠ .resetSignal then .refused .hostAccessWhileBusy else s.perform a

/-- The host moves to the next place of its listing. -/
def State.advanceHost (s : State) : State := { s with hostPos := s.hostPos + 1 }

/-- The access at the host's place; none when the listing is at its end. -/
def State.nextAccess (s : State) : Option HostAccess := s.hostProg[s.hostPos]?

/-- WREG IN_LEN's register number (10_state.md R20). -/
def regInLen : Nat := 6

/-- WREG OUT_LEN's register number (10_state.md R20). -/
def regOutLen : Nat := 7

/-- The writes `IN[a] <- b0`, `IN[a+1] <- b1`, ... of LOADIN. -/
def loadBytes (a : Nat) : List Byte → List HostAccess
  | [] => []
  | b :: bs => .writeIn a b :: loadBytes (a + 1) bs

/-- LOADIN a, b0 b1 ... (30_encoding.md R98). DESIGN CHOICE (log 19): where a + count is 2^32 or more, which the spec leaves open, the word
written to IN_LEN is its low 32 bits. -/
def loadIn (a : Nat) (bs : List Byte) : List HostAccess :=
  loadBytes a bs ++ [.writeReg regInLen (BitVec.ofNat 32 (a + bs.length))]

/-- CLROUT (30_encoding.md R98). -/
def clrOut : List HostAccess := [.writeReg regOutLen 0]

/-- ISSUE cmd (30_encoding.md R98). -/
def issueCmd (i : Instr) : List HostAccess := [.writeReg 0 (encode i)]

end Sys2Proof.Machine
end

