-- ==== Sys2Proof/Machine/Step.lean ====
section
/-!
DEFINITION. One step: the next access of the host, a CMD write with the whole command it issues (20_memory.md R74).
-/

namespace Sys2Proof.Machine

/-- One step. At the end of the host's listing the block is idle, with its state held (60_exceptions.md R283,
70_reset_and_hazards.md R291, log 2). -/
def step (s : State) : Host.Outcome State Fault Refusal :=
  match s.nextAccess with
  | none => .next s
  | some a => s.advanceHost.access a

/-- `s` with the host about to write the command `w` of `nbits` bits to CMD: the write stands at the host's place in its listing, what the
listing held there comes after it, and the block is not busy (log 2). -/
def State.withFetchWord (s : State) (nbits w : Nat) : State :=
  { s with
    hostProg := s.hostProg.take s.hostPos ++ .writeReg 0 (BitVec.ofNat 32 (w % 2 ^ nbits)) :: s.hostProg.drop s.hostPos
    hostPos := (s.hostProg.take s.hostPos).length
    status := { s.status with busy := false } }

end Sys2Proof.Machine
end

