-- ==== Sys2Proof/Safety.lean ====
section
/-!
DEFINITION. What counts as a sound state and a safe run, in the terms the claims use: the invariant of the block, byte-by-byte reading of
the output memories, and a run of host accesses.
-/

namespace Sys2Proof.Machine

/-- OUT[a] as a claim reads it: the byte the block last wrote there, none where it wrote none since reset. -/
def State.outByte? (s : State) (a : Nat) : Option Byte := Memory.cell? s.outMem a

/-- COUT[a] as a claim reads it. -/
def State.coutUnit? (s : State) (a : Nat) : Option CodeUnit := Memory.cell? s.coutMem a

/-- Every cell listed lies below the capacity of its space (20_memory.md R60, R64). -/
def Memory.below {w : Nat} (m : Memory w) (cap : Nat) : Prop := ∀ c ∈ m, c.1 < cap

/-- Every cell below `n` has been written. -/
def Memory.filled {w : Nat} (m : Memory w) (n : Nat) : Prop := ∀ a < n, (Memory.cell? m a).isSome = true

/-- The three memories are in canonical form and within their capacities, and the prefixes below OUT_LEN and COUT_LEN, which carry meaning
(10_state.md R44), have been written. -/
structure State.MemoriesSound (s : State) : Prop where
  in_wf : Memory.wf s.inMem
  out_wf : Memory.wf s.outMem
  cout_wf : Memory.wf s.coutMem
  in_below : Memory.below s.inMem s.cfg.inCap
  out_below : Memory.below s.outMem s.cfg.outCap
  cout_below : Memory.below s.coutMem s.cfg.coutCap
  out_filled : Memory.filled s.outMem s.outLen.toNat
  cout_filled : Memory.filled s.coutMem s.coutLen.toNat

/-- The tag store keeps its bounds: N <= MAX_FRAMES (10_state.md R37), len(data) <= MAX_PAYLOAD (R38). -/
structure State.StoreBounded (s : State) : Prop where
  count_le : s.frames.length ≤ s.cfg.maxFrames
  payload_le : ∀ f ∈ s.frames, f.data.length ≤ s.cfg.maxPayload

/-- The stream registers keep their bounds: RPTR <= IN_LEN <= IN_CAP (10_state.md R25, R26), OUT_LEN <= OUT_CAP, COUT_LEN <= COUT_CAP. -/
structure State.LengthsBounded (s : State) : Prop where
  rptr_le : s.rptr.toNat ≤ s.inLen.toNat
  inLen_le : s.inLen.toNat ≤ s.cfg.inCap
  outLen_le : s.outLen.toNat ≤ s.cfg.outCap
  coutLen_le : s.coutLen.toNat ≤ s.cfg.coutCap

/-- The invariant of the block: it holds after reset and every step keeps it. STATUS.BUSY reads 0 between steps (10_state.md R22) and ERR holds
one of the codes 0 to 6 (60_exceptions.md R260). -/
structure State.Inv (s : State) : Prop where
  cfg_wf : s.cfg.Wf
  lengths : s.LengthsBounded
  store : s.StoreBounded
  memories : s.MemoriesSound
  idle : s.status.busy = false
  err_le : s.status.err.toNat ≤ 6

/-- The host's next access is a write of `w` to CMD and the block is idle: the block is about to perform the command `w` encodes. -/
structure State.AboutToIssue (s : State) (w : Word) : Prop where
  idle : s.status.busy = false
  next : s.nextAccess = some (.writeReg 0 w)

/-- The state a command issued from `s` starts in: the host has moved on, and CMD holds the word (10_state.md R21). -/
def State.issued (s : State) (w : Word) : State := { s.advanceHost with cmd := w }

/-- The accesses of a listing one after another, none where one of them stops (30_encoding.md R98). -/
def State.performAll (s : State) : List HostAccess → Option State
  | [] => some s
  | a :: as =>
    match s.access a with
    | .next t => t.performAll as
    | .fault _ => none
    | .refused _ => none

end Sys2Proof.Machine
end

