-- ==== Sys2Proof/Safety/Spec.lean ====
section
/-!
DEFINITION. The spec's own terms, written a second time and in another way than the machine computes them, so that a claim compares the
machine with the spec and not with itself: shifts and masks where the machine divides, folds and index loops where it recurses on lists, and
the layout of a tag as a predicate where it parses.
-/

namespace Sys2Proof.Spec

open Sys2Proof.Machine

/-! ### Outcomes (00_scope.md R12, 60_exceptions.md R267, R268) -/

/-- The state after a command raises an error: the code, the two information values saturated at 0xFFFFFFFF, and the sticky summary when the
code is 2 or more. Nothing else changes. -/
def raised (s : State) (code : BitVec 4) (a b : Nat) : State :=
  { s with
    status := { s.status with err := code, errs := s.status.errs || decide (2 ≤ code.toNat) }
    res0 := BitVec.ofNat 32 (min a 0xFFFFFFFF)
    res1 := BitVec.ofNat 32 (min b 0xFFFFFFFF) }

/-- A state with ERR = 0 and the two results of a successful command. -/
def succeeded (s : State) (r0 r1 : Word) : State :=
  { s with status := { s.status with err := 0 }, res0 := r0, res1 := r1 }

/-! ### Bytes (00_scope.md R7, R9; 40_synchsafe.md R120) -/

/-- Bits [8i+7 : 8i] of a register. -/
def byteOf (w : Word) (i : Nat) : Byte := w.extractLsb' (8 * i) 8

/-- A register as 4 stream bytes, the most significant first. -/
def field32 (w : Word) : List Byte := [byteOf w 3, byteOf w 2, byteOf w 1, byteOf w 0]

/-- An unsigned big-endian number. -/
def bigEndian (bs : List Byte) : Nat := bs.foldl (fun n b => 256 * n + b.toNat) 0

/-- The synchsafe sum: (b_i & 0x7F) << (7*(3-i)). -/
def synchsafe (b0 b1 b2 b3 : Byte) : Nat :=
  ((b0 &&& 0x7F).toNat <<< 21) + ((b1 &&& 0x7F).toNat <<< 14) + ((b2 &&& 0x7F).toNat <<< 7) + (b3 &&& 0x7F).toNat

/-- The synchsafe groups of x: (x >> 21) & 0x7F and so on. -/
def synchsafeGroups (x : Nat) : List Nat := [(x >>> 21) &&& 0x7F, (x >>> 14) &&& 0x7F, (x >>> 7) &&& 0x7F, x &&& 0x7F]

/-- IN[a .. a+n-1]. -/
def inBytes (s : State) (a n : Nat) : List Byte := (List.range n).map fun j => s.inByte (a + j)

/-! ### Frames (30_encoding.md R102, R110) -/

/-- The size field of the frame at stream address p. -/
def sizeIn (s : State) (p : Nat) : Nat := bigEndian (inBytes s (p + 4) 4)

/-- The frame record at stream address p, with term = 0x00. -/
def frameIn (s : State) (p : Nat) : Frame where
  id := ⟨s.inByte p, s.inByte (p + 1), s.inByte (p + 2), s.inByte (p + 3)⟩
  flags := ⟨s.inByte (p + 8), s.inByte (p + 9)⟩
  data := inBytes s (p + 10) (sizeIn s p)
  term := 0

/-- frame_bytes(f). -/
def frameBytes (f : Frame) : List Byte :=
  [f.id.b0, f.id.b1, f.id.b2, f.id.b3] ++ field32 (BitVec.ofNat 32 f.data.length) ++ [f.flags.b0, f.flags.b1] ++ f.data

/-- The bytes the frames of a sequence occupy: the sum of 10 + size. -/
def extent (fs : List Frame) : Nat := (fs.map fun f => 10 + f.data.length).sum

/-! ### The tag (30_encoding.md R100 to R105, 42_tag_codec.md R172 to R181) -/

/-- The stream at p begins with "ID3". -/
def HasTagId (s : State) (p : Nat) : Prop := p + 3 ≤ s.inLen.toNat ∧ inBytes s p 3 = [0x49, 0x44, 0x33]

/-- The stream at p holds a whole tag header. -/
def HasHeader (s : State) (p : Nat) : Prop := HasTagId s p ∧ p + 10 ≤ s.inLen.toNat

/-- S, the declared tag size. -/
def tagSize (s : State) (p : Nat) : Nat :=
  synchsafe (s.inByte (p + 6)) (s.inByte (p + 7)) (s.inByte (p + 8)) (s.inByte (p + 9))

/-- The header flags byte has the extended-header bit set. -/
abbrev ExtFlag (s : State) (p : Nat) : Prop := s.inByte (p + 5) &&& s.cfg.extHdrFlagMask.bits ≠ 0

/-- Bit 15 of the extended header's flags, which stand at offset 4 of it. -/
abbrev ExtCrcBit (s : State) (p : Nat) : Prop := (s.inByte (p + 14)).getLsbD 7 = true

/-- extlen: 0, 10 or 14. -/
def extLen (s : State) (p : Nat) : Nat := if ExtFlag s p then (if ExtCrcBit s p then 14 else 10) else 0

/-- The extended header, where there is one, lies inside the declared tag and inside the stream. -/
def ExtFits (s : State) (p : Nat) : Prop :=
  ExtFlag s p → extLen s p ≤ tagSize s p ∧ p + 10 + extLen s p ≤ s.inLen.toNat

/-- The stream at p holds the frames fs back to back, none with an all-zero id, each inside the stream, and each within the capacities when
n frames come before it. -/
def FramesAt (s : State) : Nat → Nat → List Frame → Prop
  | _, _, [] => True
  | p, n, f :: fs =>
    f = frameIn s p ∧ inBytes s p 4 ≠ [0, 0, 0, 0] ∧ p + 10 + f.data.length ≤ s.inLen.toNat ∧ n < s.cfg.maxFrames ∧
      f.data.length ≤ s.cfg.maxPayload ∧ FramesAt s (p + 10 + f.data.length) (n + 1) fs

/-- The bytes TRD reads of padding that begins at p with avail tag bytes left. -/
def padRead (avail : Nat) : Nat := if avail < 10 then min 4 avail else 10

/-- Padding begins at p with avail tag bytes left: the bytes TRD reads are in the stream, and the id bytes are zero. -/
def PaddingAt (s : State) (p avail : Nat) : Prop :=
  p + padRead avail ≤ s.inLen.toNat ∧ ∀ j < min 4 avail, s.inByte (p + j) = 0

/-- The address after the frames fs of a tag at p. -/
def framesEnd (s : State) (p : Nat) (fs : List Frame) : Nat := p + 10 + extLen s p + extent fs

/-- The stream at p holds a tag: header, extended header if flagged, the frames fs, and pad bytes of padding, which together make up the
declared size. -/
structure TagAt (s : State) (p : Nat) (fs : List Frame) (pad : Nat) : Prop where
  header : HasHeader s p
  ext : ExtFits s p
  frames : FramesAt s (p + 10 + extLen s p) 0 fs
  size : tagSize s p = extLen s p + extent fs + pad
  padding : 0 < pad → PaddingAt s (framesEnd s p fs) pad

/-- The state after TRD reads that tag (42_tag_codec.md R178). -/
def tagRead (s : State) (p : Nat) (fs : List Frame) (pad : Nat) : State :=
  { s with
    status := { s.status with err := 0, paddet := decide (0 < pad) }
    res0 := BitVec.ofNat 32 (10 + tagSize s p)
    res1 := BitVec.ofNat 32 (tagSize s p - pad)
    rptr := BitVec.ofNat 32 (framesEnd s p fs)
    hdr0 := { verMajor := s.inByte (p + 3), verMinor := s.inByte (p + 4), hflags := s.inByte (p + 5) }
    hdrSize := BitVec.ofNat 32 (tagSize s p)
    extHsize := if ExtFlag s p then BitVec.ofNat 32 (bigEndian (inBytes s (p + 10) 4)) else 0
    extCtrl :=
      { flags := if ExtFlag s p then BitVec.ofNat 16 (bigEndian (inBytes s (p + 14) 2)) else 0
        present := decide (ExtFlag s p) }
    extPad := if ExtFlag s p then BitVec.ofNat 32 (bigEndian (inBytes s (p + 16) 4)) else 0
    extCrc := if ExtFlag s p ∧ ExtCrcBit s p then BitVec.ofNat 32 (bigEndian (inBytes s (p + 20) 4)) else 0
    frames := fs }

/-- ext_bytes() (42_tag_codec.md R187). -/
def extBytes (s : State) : List Byte :=
  match s.extCtrl.present, s.extCtrl.flags.getLsbD 15 with
  | false, _ => []
  | true, false =>
    field32 s.extHsize ++ [s.extCtrl.flags.extractLsb' 8 8, s.extCtrl.flags.extractLsb' 0 8] ++ field32 s.extPad
  | true, true =>
    field32 s.extHsize ++ [s.extCtrl.flags.extractLsb' 8 8, s.extCtrl.flags.extractLsb' 0 8] ++ field32 s.extPad ++
      field32 s.extCrc

/-- tag_bytes() (42_tag_codec.md R187). -/
def tagBytes (s : State) : List Byte :=
  [0x49, 0x44, 0x33, s.hdr0.verMajor, s.hdr0.verMinor, s.hdr0.hflags] ++
    (synchsafeGroups s.hdrSize.toNat).map (BitVec.ofNat 8) ++ extBytes s ++ (s.frames.map frameBytes).flatten

/-! ### Writing OUT and COUT (20_memory.md R62, R63) -/

/-- `t` has the run `bs` in OUT from address `a` up, and every other OUT byte as `s` has it. -/
def OutWritten (s t : State) (a : Nat) (bs : List Byte) : Prop :=
  (∀ j (h : j < bs.length), t.outByte? (a + j) = some bs[j]) ∧
    ∀ b, b < a ∨ a + bs.length ≤ b → t.outByte? b = s.outByte? b

/-- `t` has the units `us` in COUT from address 0 up, and every other COUT unit as `s` has it. -/
def CoutWritten (s t : State) (us : List CodeUnit) : Prop :=
  (∀ j (h : j < us.length), t.coutUnit? j = some us[j]) ∧ ∀ b, us.length ≤ b → t.coutUnit? b = s.coutUnit? b

/-! ### The classifier's pseudocode, by index (43_classifier.md R222) -/

/-- le16(p[j], p[j+1]): the second byte is the high one. -/
def unitAt (p : List Byte) (j : Nat) : CodeUnit := (p.getD (j + 1) 0 ++ p.getD j 0 : BitVec 16)

/-- Rule 2's loop from index j. -/
def rule2Loop (p : List Byte) : Nat → Nat → List CodeUnit
  | 0, _ => []
  | fuel + 1, j => if j + 1 < p.length then unitAt p j :: rule2Loop p fuel (j + 2) else []

/-- Rule 3's inner loop from index j: the units of the run, and the index after it. -/
def runLoop (p : List Byte) : Nat → Nat → List CodeUnit × Nat
  | 0, j => ([], j)
  | fuel + 1, j =>
    if p.length ≤ j + 1 then ([], p.length)
    else if unitAt p j = 0 then ([], j + 2)
    else (unitAt p j :: (runLoop p fuel (j + 2)).1, (runLoop p fuel (j + 2)).2)

/-- Rule 3's outer loop from index i. -/
def rule3Loop (p : List Byte) : Nat → Nat → List CodeUnit
  | 0, _ => []
  | fuel + 1, i =>
    if i < p.length then
      if i + 1 < p.length ∧ p.getD i 0 = 0xFF ∧ p.getD (i + 1) 0 = 0xFE then
        (runLoop p p.length (i + 2)).1 ++ rule3Loop p fuel (runLoop p p.length (i + 2)).2
      else (p.getD i 0).setWidth 16 :: rule3Loop p fuel (i + 1)
    else []

/-- CLS's `out` and `r` for a frame. Each loop gets as many iterations as the payload has bytes, which is enough. -/
def classify (placeholder : List CodeUnit) (f : Frame) : List CodeUnit × Nat :=
  if f.id = ⟨0x41, 0x50, 0x49, 0x43⟩ then (placeholder, 1)
  else if 3 ≤ f.data.length ∧ f.data.getD 0 0 = 0x01 ∧ f.data.getD 1 0 = 0xFF ∧ f.data.getD 2 0 = 0xFE then
    (rule2Loop f.data f.data.length 3, 2)
  else if f.term = 0x00 then
    (rule3Loop f.data f.data.length (if 1 ≤ f.data.length ∧ f.data.getD 0 0 = 0x00 then 1 else 0), 3)
  else (f.data.map (BitVec.setWidth 16), 4)

end Sys2Proof.Spec
end

