-- ==== Sys2Proof/Certificates/Slice0/Obligations.lean ====
section
/-!
DEFINITION. The statements for the provers. Every statement holds for every state, and so for every choice of the parameters of 00_scope.md R5,
unless it names a hypothesis. A state is described through the register map, STATUS's fields and byte reads, or as the start state with the
changed fields written out, which states the frame.
-/

open Sys2Proof Sys2Proof.Machine Sys2Proof.Spec

/-! ### Encoding and decoding -/

/-- 30_encoding.md Part A: every well-formed command, with every operand its field admits, decodes from its own word. -/
def Obligations.EncodedCommandsDecodeBack : Prop :=
  ∀ i : Instr, i.WellFormed → decode (encode i) = .ok i

/-- 30_encoding.md Part A: a word that decodes is the one encoding of what it decodes to, and that is well formed. -/
def Obligations.DecodedWordsEncodeBack : Prop :=
  ∀ (w : Word) (i : Instr), decode w = .ok i → i.WellFormed ∧ encode i = w

/-- 30_encoding.md R93, R94, R96: the decode procedure, total on every word the host can write to CMD, with its checks before every other
check of the command. -/
def Obligations.EveryCommandWordFollowsDecodeProcedure : Prop :=
  ∀ (s : State) (w : Word), s.AboutToIssue w →
    let op := (byteOf w 0).toNat
    let k := w.toNat >>> 8
    let t := s.issued w
    (op = 0x01 ∧ k = 0 → step s = exec .ssdec t) ∧
    (op = 0x02 ∧ k = 0 → step s = exec .ssenc t) ∧
    (op = 0x03 ∧ k = 0 → step s = exec .frd t) ∧
    (op = 0x04 ∧ k < s.frames.length → step s = exec (.fwr k) t) ∧
    (op = 0x05 ∧ k = 0 → step s = exec .trd t) ∧
    (op = 0x06 ∧ k = 0 → step s = exec .twr t) ∧
    (op = 0x07 ∧ k < s.frames.length → step s = exec (.cls k) t) ∧
    (op = 0x08 ∧ k = 0 → step s = exec .tclr t) ∧
    ((op = 0x04 ∨ op = 0x07) ∧ s.frames.length ≤ k → step s = .next (raised t 5 w.toNat 2)) ∧
    ((op = 0x01 ∨ op = 0x02 ∨ op = 0x03 ∨ op = 0x05 ∨ op = 0x06 ∨ op = 0x08) ∧ k ≠ 0 →
      step s = .next (raised t 5 w.toNat 3)) ∧
    ((op = 0x00 ∨ 0x09 ≤ op) → step s = .next (raised t 5 w.toNat 1))

/-- A step performs the command that the word at the host port decodes to, in the state in which the host has moved on and CMD holds the
word. -/
def Obligations.StepRunsTheDecodedCommand : Prop :=
  ∀ (s : State) (w : Word) (i : Instr), s.AboutToIssue w → decode w = .ok i → step s = exec i (s.issued w)

/-- 10_state.md R21, the part about the register: CMD holds the last word written, whatever the command does, no command writes it, and it
reads 0 after reset. -/
def Obligations.CmdHoldsTheLastWordWritten : Prop :=
  (∀ (s t : State) (w : Word), s.AboutToIssue w → step s = .next t → t.readReg 0 = w) ∧
  (∀ (i : Instr) (s t : State), exec i s = .next t → t.readReg 0 = s.readReg 0) ∧
  ∀ c : Config, (State.resetWith c).readReg 0 = 0

/-- Words written out from the opcode map (30_encoding.md R92), one for each family, and two that spell no command. -/
def Obligations.WrittenOutWordsDecode : Prop :=
  decode 0x00000001 = .ok .ssdec ∧ decode 0x00000003 = .ok .frd ∧ decode 0x00001204 = .ok (.fwr 0x12) ∧
  decode 0x00000006 = .ok .twr ∧ decode 0xFFFFFF07 = .ok (.cls 0xFFFFFF) ∧ decode 0x00000008 = .ok .tclr ∧
  decode 0x12345600 = .error .reservedOpcode ∧ decode 0x00000105 = .error .nonZeroOperand

/-! ### Synchsafe codec -/

/-- 40_synchsafe.md R121: SSDEC's two results, for every ARG0, and its one error. -/
def Obligations.SsdecDecodesArg0 : Prop :=
  decode 0x00000001 = .ok .ssdec ∧
  (∀ s : State,
    let a := s.arg0
    exec .ssdec s = .next (succeeded s
      (BitVec.ofNat 32 (synchsafe (byteOf a 3) (byteOf a 2) (byteOf a 1) (byteOf a 0)))
      (BitVec.ofNat 32 (((byteOf a 3).getLsbD 7).toNat <<< 3 ||| ((byteOf a 2).getLsbD 7).toNat <<< 2 |||
        ((byteOf a 1).getLsbD 7).toNat <<< 1 ||| ((byteOf a 0).getLsbD 7).toNat)))) ∧
  ∀ (s : State) (w : Word), s.AboutToIssue w → byteOf w 0 = 0x01 → w.toNat >>> 8 ≠ 0 →
    step s = .next (raised (s.issued w) 5 w.toNat 3)

/-- 40_synchsafe.md R124: SSENC's result below 2^28, its error from 2^28 up, and its decode error. -/
def Obligations.SsencEncodesArg0 : Prop :=
  decode 0x00000002 = .ok .ssenc ∧
  (∀ s : State, s.arg0.toNat < 2 ^ 28 →
    let x := s.arg0.toNat
    exec .ssenc s = .next (succeeded s
      (BitVec.ofNat 32 (2 ^ 24 * ((x >>> 21) &&& 0x7F) + 2 ^ 16 * ((x >>> 14) &&& 0x7F) + 2 ^ 8 * ((x >>> 7) &&& 0x7F) +
        (x &&& 0x7F))) 0)) ∧
  (∀ s : State, 2 ^ 28 ≤ s.arg0.toNat → exec .ssenc s = .next (raised s 4 s.arg0.toNat 0)) ∧
  ∀ (s : State) (w : Word), s.AboutToIssue w → byteOf w 0 = 0x02 → w.toNat >>> 8 ≠ 0 →
    step s = .next (raised (s.issued w) 5 w.toNat 3)

/-- 40_synchsafe.md R126: SSENC, then SSDEC on what it left in RES0, gives the value back with no top bit reported. -/
def Obligations.SynchsafeRoundTripThroughRegisters : Prop :=
  (∀ x : Nat, x < 2 ^ 28 → ssDecode (ssEncode x) = x) ∧
  ∀ s : State, s.arg0.toNat < 2 ^ 28 →
    ∃ t u : State, exec .ssenc s = .next t ∧ exec .ssdec (t.writeReg 2 (t.readReg 3)) = .next u ∧
      u.readReg 3 = s.arg0 ∧ u.readReg 4 = 0 ∧ u.status.err = 0

/-- 40_synchsafe.md section 4: re-encoding a decoded field gives the field back exactly when no top bit is set. -/
def Obligations.SynchsafeFieldsReencodeOnlyWithTopBitsClear : Prop :=
  ∀ b : Bytes4, ssEncode (ssDecode b) = b ↔
    (b.b0.getLsbD 7 = false ∧ b.b1.getLsbD 7 = false ∧ b.b2.getLsbD 7 = false ∧ b.b3.getLsbD 7 = false)

/-- 40_synchsafe.md R123: decoded values, RES0 after SSDEC and HDR_SIZE after TRD are below 2^28. -/
def Obligations.DecodedSizesStayBelow28Bits : Prop :=
  (∀ b0 b1 b2 b3 : Byte, ssDecode ⟨b0, b1, b2, b3⟩ ≤ 2 ^ 28 - 1) ∧
  (∀ s t : State, exec .ssdec s = .next t → t.res0.toNat < 2 ^ 28) ∧
  ∀ s t : State, exec .trd s = .next t → t.status.err = 0 → t.hdrSize.toNat < 2 ^ 28

/-! ### Frame codec -/

/-- 41_frame_codec.md R141: FRD's effect when every check passes, with everything else of the state unchanged, and its four errors in the
pseudocode's order. -/
def Obligations.FrdAppendsTheFrameAtRptr : Prop :=
  decode 0x00000003 = .ok .frd ∧
  (∀ s : State,
    let p := s.rptr.toNat
    let fsz := sizeIn s p
    let n := s.frames.length
    (p + 10 + fsz ≤ s.inLen.toNat ∧ n < s.cfg.maxFrames ∧ fsz ≤ s.cfg.maxPayload →
      exec .frd s = .next { succeeded s (BitVec.ofNat 32 n) (BitVec.ofNat 32 fsz) with
        frames := s.frames ++ [frameIn s p]
        rptr := BitVec.ofNat 32 (p + 10 + fsz) }) ∧
    (s.inLen.toNat < p + 10 → exec .frd s = .next (raised s 3 p 10)) ∧
    (p + 10 ≤ s.inLen.toNat ∧ s.inLen.toNat < p + 10 + fsz → exec .frd s = .next (raised s 3 (p + 10) fsz)) ∧
    (p + 10 + fsz ≤ s.inLen.toNat ∧ s.cfg.maxFrames ≤ n → exec .frd s = .next (raised s 6 1 (n + 1))) ∧
    (p + 10 + fsz ≤ s.inLen.toNat ∧ n < s.cfg.maxFrames ∧ s.cfg.maxPayload < fsz →
      exec .frd s = .next (raised s 6 2 fsz))) ∧
  ∀ (s : State) (w : Word), s.AboutToIssue w → byteOf w 0 = 0x03 → w.toNat >>> 8 ≠ 0 →
    step s = .next (raised (s.issued w) 5 w.toNat 3)

/-- 41_frame_codec.md R145 and 30_encoding.md R110: FWR's effect when the frame exists and OUT has room, every other byte of OUT and all
the rest of the state unchanged, and its two errors. -/
def Obligations.FwrAppendsTheFrameBytes : Prop :=
  (∀ k : Nat, k < 2 ^ 24 → decode (BitVec.ofNat 32 (k <<< 8 ||| 0x04)) = .ok (.fwr k)) ∧
  (∀ (s : State) (k : Nat) (f : Frame), s.frames[k]? = some f →
    let l := 10 + f.data.length
    let o := s.outLen.toNat
    (o + l ≤ s.cfg.outCap →
      ∃ t : State, exec (.fwr k) s = .next t ∧ OutWritten s t o (frameBytes f) ∧ (frameBytes f).length = l ∧
        t = { succeeded s (BitVec.ofNat 32 l) (BitVec.ofNat 32 (o + l)) with
          outMem := t.outMem
          outLen := BitVec.ofNat 32 (o + l) }) ∧
    (s.cfg.outCap < o + l → exec (.fwr k) s = .next (raised s 6 3 (o + l)))) ∧
  ∀ (s : State) (w : Word), s.AboutToIssue w → byteOf w 0 = 0x04 → s.frames.length ≤ w.toNat >>> 8 →
    step s = .next (raised (s.issued w) 5 w.toNat 2)

/-- 41_frame_codec.md R147: a frame read by FRD and written by FWR (N-1) is the frame's bytes in IN, byte for byte, appended to OUT. -/
def Obligations.FrameReadIsWrittenBackByteForByte : Prop :=
  ∀ s : State,
    let p := s.rptr.toNat
    let len := 10 + sizeIn s p
    p + len ≤ s.inLen.toNat → s.frames.length < s.cfg.maxFrames → sizeIn s p ≤ s.cfg.maxPayload →
    s.outLen.toNat + len ≤ s.cfg.outCap → s.cfg.Wf →
    ∃ t u : State, exec .frd s = .next t ∧ exec (.fwr (t.frames.length - 1)) t = .next u ∧ u.status.err = 0 ∧
      OutWritten s u s.outLen.toNat (inBytes s p len) ∧ u.outLen.toNat = s.outLen.toNat + len

/-! ### Tag codec -/

/-- 42_tag_codec.md R174: NotATag exactly when the stream does not begin with "ID3", and a truncated header when it does but has fewer than
10 bytes. -/
def Obligations.TrdReportsNotATagExactlyWithoutSignature : Prop :=
  ∀ s : State,
    let p := s.rptr.toNat
    (¬ HasTagId s p → exec .trd s = .next (raised s 1 p 0)) ∧
    (∀ t : State, exec .trd s = .next t → t.status.err = 1 → ¬ HasTagId s p) ∧
    (HasTagId s p ∧ s.inLen.toNat < p + 10 → exec .trd s = .next (raised s 3 p 10))

/-- 42_tag_codec.md, section 1: the four errors of the extended-header phase, in their order. -/
def Obligations.TrdExtendedHeaderErrors : Prop :=
  ∀ s : State,
    let p := s.rptr.toNat
    HasHeader s p → ExtFlag s p →
    (tagSize s p < 10 → exec .trd s = .next (raised s 2 (p + 10) 10)) ∧
    (10 ≤ tagSize s p ∧ s.inLen.toNat < p + 20 → exec .trd s = .next (raised s 3 (p + 10) 10)) ∧
    (10 ≤ tagSize s p ∧ p + 20 ≤ s.inLen.toNat ∧ ExtCrcBit s p ∧ tagSize s p < 14 →
      exec .trd s = .next (raised s 2 (p + 20) 4)) ∧
    (14 ≤ tagSize s p ∧ p + 20 ≤ s.inLen.toNat ∧ ExtCrcBit s p ∧ s.inLen.toNat < p + 24 →
      exec .trd s = .next (raised s 3 (p + 20) 4))

/-- 42_tag_codec.md R178 (completeness): on every laid-out tag, with or without extended header, CRC and padding, TRD succeeds and replaces
the whole store with what the layout says; everything else of the state is unchanged. -/
def Obligations.TrdReadsEveryLaidOutTag : Prop :=
  ∀ (s : State) (fs : List Frame) (pad : Nat), TagAt s s.rptr.toNat fs pad →
    exec .trd s = .next (tagRead s s.rptr.toNat fs pad)

/-- 42_tag_codec.md section 1 (soundness): TRD succeeds on laid-out tags only, and leaves what the layout says. -/
def Obligations.TrdAcceptsOnlyLaidOutTags : Prop :=
  ∀ s t : State, exec .trd s = .next t → t.status.err = 0 →
    ∃ (fs : List Frame) (pad : Nat), TagAt s s.rptr.toNat fs pad ∧ t = tagRead s s.rptr.toNat fs pad

/-- 42_tag_codec.md section 1: after any run of good frames, what stops the frame loop with an error: the short tail, the frame header, the tag
bound, the payload, the store and the payload limit, in their order, with the store, RPTR and PADDET kept. -/
def Obligations.TrdFrameLoopErrors : Prop :=
  ∀ (s : State) (fs : List Frame),
    let p := s.rptr.toNat
    let q := framesEnd s p fs
    let avail := tagSize s p - extLen s p - extent fs
    let fsz := sizeIn s q
    HasHeader s p → ExtFits s p → FramesAt s (p + 10 + extLen s p) 0 fs → extLen s p + extent fs < tagSize s p →
    (avail < 10 ∧ s.inLen.toNat < q + min 4 avail → exec .trd s = .next (raised s 3 q (min 4 avail))) ∧
    (avail < 10 ∧ q + min 4 avail ≤ s.inLen.toNat ∧ (∃ j < min 4 avail, s.inByte (q + j) ≠ 0) →
      exec .trd s = .next (raised s 2 q 10)) ∧
    (10 ≤ avail ∧ s.inLen.toNat < q + 10 → exec .trd s = .next (raised s 3 q 10)) ∧
    (10 ≤ avail ∧ q + 10 ≤ s.inLen.toNat ∧ inBytes s q 4 ≠ [0, 0, 0, 0] →
      (avail < 10 + fsz → exec .trd s = .next (raised s 2 q (10 + fsz))) ∧
      (10 + fsz ≤ avail ∧ s.inLen.toNat < q + 10 + fsz → exec .trd s = .next (raised s 3 (q + 10) fsz)) ∧
      (10 + fsz ≤ avail ∧ q + 10 + fsz ≤ s.inLen.toNat ∧ s.cfg.maxFrames ≤ fs.length →
        exec .trd s = .next (raised s 6 1 (fs.length + 1))) ∧
      (10 + fsz ≤ avail ∧ q + 10 + fsz ≤ s.inLen.toNat ∧ fs.length < s.cfg.maxFrames ∧ s.cfg.maxPayload < fsz →
        exec .trd s = .next (raised s 6 2 fsz)))

/-- 42_tag_codec.md R185: the frames' bytes, the padding TRD found and the extended header's bytes make up the declared size. -/
def Obligations.TagSizeIsFramesPlusPadding : Prop :=
  ∀ s t : State, exec .trd s = .next t → t.status.err = 0 →
    let size := t.hdrSize.toNat
    let padding := bif t.status.paddet then size - t.res1.toNat else 0
    (t.extCtrl.present = false → extent t.frames + padding = size) ∧
    (t.extCtrl.present = true →
      (bif t.extCtrl.flags.getLsbD 15 then 14 else 10) + extent t.frames + padding = size)

/-- 42_tag_codec.md R184: every frame TRD stores has term = 0x00, so that CLS on it uses rule 3 or an earlier one. -/
def Obligations.FramesFromTrdNeverTakeRuleFour : Prop :=
  ∀ s t : State, exec .trd s = .next t → t.status.err = 0 →
    (∀ f ∈ t.frames, f.term = 0x00) ∧
    ∀ (k : Nat) (u : State), exec (.cls k) t = .next u → u.status.err = 0 → 1 ≤ u.res1.toNat ∧ u.res1.toNat ≤ 3

/-- 42_tag_codec.md R192: a tag without padding whose size bytes have their top bits clear, read by TRD and written by TWR, is the tag's 10 + S
bytes in IN, byte for byte, appended to OUT. -/
def Obligations.TagReadIsWrittenBackByteForByte : Prop :=
  ∀ s t : State, s.cfg.Wf → exec .trd s = .next t → t.status.err = 0 → t.status.paddet = false →
    let p := s.rptr.toNat
    let len := 10 + t.hdrSize.toNat
    (∀ j, j < 4 → (s.inByte (p + 6 + j)).getLsbD 7 = false) →
    s.outLen.toNat + len ≤ s.cfg.outCap →
    ∃ u : State, exec .twr t = .next u ∧ u.status.err = 0 ∧ OutWritten s u s.outLen.toNat (inBytes s p len) ∧
      u.outLen.toNat = s.outLen.toNat + len

/-- 42_tag_codec.md R186, R187: TWR's effect when HDR_SIZE can be encoded and OUT has room, every other byte of OUT and all the rest of the
state unchanged, and its errors in their order. -/
def Obligations.TwrAppendsTheTagBytes : Prop :=
  decode 0x00000006 = .ok .twr ∧
  (∀ s : State,
    let l := (tagBytes s).length
    let o := s.outLen.toNat
    (s.hdrSize.toNat < 2 ^ 28 ∧ o + l ≤ s.cfg.outCap →
      ∃ t : State, exec .twr s = .next t ∧ OutWritten s t o (tagBytes s) ∧
        t = { succeeded s (BitVec.ofNat 32 l) (BitVec.ofNat 32 s.frames.length) with
          outMem := t.outMem
          outLen := BitVec.ofNat 32 (o + l) }) ∧
    (2 ^ 28 ≤ s.hdrSize.toNat → exec .twr s = .next (raised s 4 s.hdrSize.toNat 0)) ∧
    (s.hdrSize.toNat < 2 ^ 28 ∧ s.cfg.outCap < o + l → exec .twr s = .next (raised s 6 3 (o + l)))) ∧
  ∀ (s : State) (w : Word), s.AboutToIssue w → byteOf w 0 = 0x06 → w.toNat >>> 8 ≠ 0 →
    step s = .next (raised (s.issued w) 5 w.toNat 3)

/-- 42_tag_codec.md R190: the four size bytes TWR writes have bit 7 clear. -/
def Obligations.TwrWritesSizeWithTopBitsClear : Prop :=
  ∀ s t : State, exec .twr s = .next t → t.status.err = 0 →
    ∀ j, 6 ≤ j ∧ j < 10 → ∃ b : Byte, t.outByte? (s.outLen.toNat + j) = some b ∧ b.getLsbD 7 = false

/-- 42_tag_codec.md section 2, the padding hazard: after a TRD that found padding, a TWR with HDR_SIZE unchanged writes 10 + RES1 bytes, fewer
than the size it declares. -/
def Obligations.PaddedTagIsWrittenShorterThanDeclared : Prop :=
  ∀ s t u : State, exec .trd s = .next t → t.status.err = 0 → t.status.paddet = true →
    exec .twr t = .next u → u.status.err = 0 →
    u.res0.toNat = 10 + t.res1.toNat ∧ t.res1.toNat < t.hdrSize.toNat ∧ u.hdrSize = t.hdrSize

/-- 42_tag_codec.md R195: TCLR empties the store and zeroes its registers, and touches nothing else; its one error is the decode error. -/
def Obligations.TclrEmptiesTheStore : Prop :=
  decode 0x00000008 = .ok .tclr ∧
  (∀ s : State, ∃ t : State, exec .tclr s = .next t ∧
    (∀ n, n = 9 ∨ n = 10 ∨ n = 11 ∨ n = 12 ∨ n = 13 ∨ n = 14 ∨ n = 15 → t.readReg n = 0) ∧ t.frames = [] ∧
    t.status.paddet = false ∧
    t = { succeeded s 0 0 with
      frames := t.frames
      hdr0 := t.hdr0
      hdrSize := t.hdrSize
      extHsize := t.extHsize
      extCtrl := t.extCtrl
      extPad := t.extPad
      extCrc := t.extCrc
      status := { s.status with err := 0, paddet := t.status.paddet } }) ∧
  ∀ (s : State) (w : Word), s.AboutToIssue w → byteOf w 0 = 0x08 → w.toNat >>> 8 ≠ 0 →
    step s = .next (raised (s.issued w) 5 w.toNat 3)

/-! ### Classifier -/

/-- 43_classifier.md R222: CLS renders what the index loops of the pseudocode render, into COUT, COUT_LEN, RES0 and RES1, with every other unit of
COUT and all the rest of the state unchanged; and its two errors. -/
def Obligations.ClsFollowsThePseudocode : Prop :=
  (∀ k : Nat, k < 2 ^ 24 → decode (BitVec.ofNat 32 (k <<< 8 ||| 0x07)) = .ok (.cls k)) ∧
  (∀ (s : State) (k : Nat) (f : Frame), s.frames[k]? = some f →
    let out := (classify s.cfg.apicPlaceholder f).1
    let r := (classify s.cfg.apicPlaceholder f).2
    (out.length ≤ s.cfg.coutCap →
      ∃ t : State, exec (.cls k) s = .next t ∧ CoutWritten s t out ∧
        t = { succeeded s (BitVec.ofNat 32 out.length) (BitVec.ofNat 32 r) with
          coutMem := t.coutMem
          coutLen := BitVec.ofNat 32 out.length }) ∧
    (s.cfg.coutCap < out.length → exec (.cls k) s = .next (raised s 6 4 out.length))) ∧
  ∀ (s : State) (w : Word), s.AboutToIssue w → byteOf w 0 = 0x07 → s.frames.length ≤ w.toNat >>> 8 →
    step s = .next (raised (s.issued w) 5 w.toNat 2)

/-- 43_classifier.md R232: whatever its outcome, CLS writes COUT, COUT_LEN, RES0, RES1 and STATUS only. -/
def Obligations.ClsWritesOnlyItsOutput : Prop :=
  ∀ (k : Nat) (s t : State), exec (.cls k) s = .next t →
    t = { s with coutMem := t.coutMem, coutLen := t.coutLen, res0 := t.res0, res1 := t.res1, status := t.status }

/-- 43_classifier.md R233: a payload that begins 01 FF FE takes rule 2 even when its term is 0, one that begins 00 FF FE or FF FE, with term 0, takes
rule 3, and at the first null unit rule 2 emits it and goes on in pairs, where rule 3 ends the run and scans on. Rule 1 comes before both. -/
def Obligations.LegacyMarkerAndBomScanDifferAtNullUnits : Prop :=
  ∀ (s t : State) (k : Nat) (f : Frame), s.frames[k]? = some f → f.id ≠ ⟨0x41, 0x50, 0x49, 0x43⟩ →
    exec (.cls k) s = .next t → t.status.err = 0 →
    (f.data.take 3 = [0x01, 0xFF, 0xFE] → t.res1 = 2) ∧
    (f.data.take 3 = [0x00, 0xFF, 0xFE] ∨ f.data.take 2 = [0xFF, 0xFE] → f.term = 0 → t.res1 = 3) ∧
    ∀ (xs : List (Byte × Byte)) (ys : List Byte), (∀ x ∈ xs, ¬ (x.1 = 0 ∧ x.2 = 0)) →
      let run := xs.flatMap fun x => [x.1, x.2]
      let units := xs.map fun x => (x.2 ++ x.1 : BitVec 16)
      (f.data = [0x01, 0xFF, 0xFE] ++ run ++ [0, 0] ++ ys → CoutWritten s t (units ++ 0 :: pairUnits ys)) ∧
      (f.data = [0x00, 0xFF, 0xFE] ++ run ++ [0, 0] ++ ys ∨ f.data = [0xFF, 0xFE] ++ run ++ [0, 0] ++ ys → f.term = 0 →
        CoutWritten s t (units ++ scanUnits false ys))

/-! ### Errors and STATUS -/

/-- 60_exceptions.md R269: after a failing command the state is the state before it, except for STATUS.ERR, STATUS.ERRS, RES0 and RES1. -/
def Obligations.FailingCommandsChangeNothingElse : Prop :=
  ∀ (i : Instr) (s t : State), exec i s = .next t → t.status.err ≠ 0 →
    t = { s with
      status := { s.status with err := t.status.err, errs := s.status.errs || decide (2 ≤ t.status.err.toNat) }
      res0 := t.res0
      res1 := t.res1 }

/-- 10_state.md R46: which commands write which STATUS flags, and what they write. -/
def Obligations.StatusFlagsFollowTheSummary : Prop :=
  (∀ (i : Instr) (s t : State), exec i s = .next t →
    t.status.busy = s.status.busy ∧ t.status.err.toNat ≤ 6 ∧
    (t.status.errs = (s.status.errs || decide (2 ≤ t.status.err.toNat))) ∧
    (i ≠ .trd ∧ i ≠ .tclr → t.status.paddet = s.status.paddet) ∧
    (t.status.err ≠ 0 → t.status.paddet = s.status.paddet) ∧
    (i = .tclr → t.status.err = 0 ∧ t.status.paddet = false)) ∧
  (∀ s t : State, exec .trd s = .next t → t.status.err = 0 →
    (t.status.paddet = true ↔ t.res1.toNat < t.hdrSize.toNat)) ∧
  ∀ (s : State) (w : Word), s.AboutToIssue w → (byteOf w 0 = 0 ∨ 9 ≤ (byteOf w 0).toNat) →
    ∃ t : State, step s = .next t ∧ t.status.err = 5 ∧ t.status.errs = true ∧ t.status.paddet = s.status.paddet

/-- 10_state.md section 1, STATUS.ERRS: no step but the reset signal clears the sticky summary. -/
def Obligations.OnlyResetClearsTheStickySummary : Prop :=
  ∀ s t : State, step s = .next t → s.status.errs = true → s.nextAccess ≠ some .resetSignal → t.status.errs = true

/-- 60_exceptions.md sections 2 and 5: every command, in every state, ends in a next state; none stops the machine. -/
def Obligations.EveryCommandEndsInANextState : Prop :=
  ∀ (i : Instr) (s : State), ∃ t : State, exec i s = .next t

/-! ### Memory -/

/-- 20_memory.md sections 1 and 3: no command writes IN, IN_LEN, ARG0, CMD, the parameters or anything of the host's. -/
def Obligations.CommandsNeverWriteInput : Prop :=
  ∀ (i : Instr) (s t : State), exec i s = .next t →
    t.inMem = s.inMem ∧ t.inLen = s.inLen ∧ t.arg0 = s.arg0 ∧ t.cmd = s.cmd ∧ t.cfg = s.cfg ∧ t.hostProg = s.hostProg ∧
      t.hostPos = s.hostPos ∧ t.hostSeen = s.hostSeen ∧ t.resets = s.resets ∧ t.freeReads = s.freeReads ∧
      ∀ a, t.inByte a = s.inByte a

/-- 20_memory.md section 1: no command reads IN at or beyond IN_LEN. Two states that differ only there (in the cells listed and in the free values
of the unlisted ones) run every command alike. -/
def Obligations.InputBeyondItsLengthIsNeverRead : Prop :=
  ∀ (i : Instr) (s : State) (m : List Host.Cell) (r : Nat),
    let other : State → State := fun t => { t with inMem := m, resets := r }
    (∀ a, a < s.inLen.toNat → (other s).inByte a = s.inByte a) →
    ∀ t : State, exec i s = .next t → exec i (other s) = .next (other t)

/-- 20_memory.md section 1: OUT is append-only. No command lowers OUT_LEN or changes a byte below it. -/
def Obligations.CommandsOnlyAppendToOutput : Prop :=
  ∀ (i : Instr) (s t : State), s.cfg.Wf → exec i s = .next t →
    s.outLen.toNat ≤ t.outLen.toNat ∧ ∀ a, a < s.outLen.toNat → t.outByte? a = s.outByte? a

/-- 70_reset_and_hazards.md section 3: COUT and COUT_LEN keep their values until the next successful CLS. -/
def Obligations.ClassifierOutputIsKeptUntilTheNextCls : Prop :=
  ∀ (i : Instr) (s t : State), exec i s = .next t → (∀ k, i = .cls k → t.status.err ≠ 0) →
    t.coutLen = s.coutLen ∧ ∀ a, t.coutUnit? a = s.coutUnit? a

/-! ### The whole machine -/

/-- The invariant is kept by every step: the canonical memories, the bounds of the stream registers and of the store, BUSY = 0 and a legal
ERR. -/
def Obligations.EveryStepKeepsTheBlockSound : Prop :=
  ∀ s t : State, s.Inv → step s = .next t → t.Inv

/-- The invariant holds after reset, for every choice of the parameters that 00_scope.md R5 admits. -/
def Obligations.TheBlockIsSoundAfterReset : Prop :=
  ∀ c : Config, c.Wf → (State.resetWith c).Inv

/-- 70_reset_and_hazards.md R292: no step, not even reset, changes a parameter. That State carries them is the model's choice
(log 1). -/
def Obligations.NoStepChangesAParameter : Prop :=
  ∀ s t : State, step s = .next t → t.cfg = s.cfg

/-- 42_tag_codec.md section 1, termination: floor(avail / 10) + 1 iterations of the frame loop are enough; more change nothing (the
model's bound of log 17 is never what ends the loop). -/
def Obligations.FrameLoopIterationsAreBounded : Prop :=
  ∀ (s : State) (extra p avail n : Nat),
    s.readFrames (avail / 10 + 1 + extra) p avail n = s.readFrames (avail / 10 + 1) p avail n

/-! ### Reset -/

/-- 70_reset_and_hazards.md section 1: after the reset signal every register reads 0 and the store is empty. That no memory cell holds a written value is
the model's form of unspecified contents (log 4, log 15), and that the signal reaches a busy block too is the model's reading (log 7). -/
def Obligations.ResetSignalClearsTheBlock : Prop :=
  ∀ s : State, s.nextAccess = some .resetSignal → ∃ t : State, step s = .next t ∧
    (∀ n, t.readReg n = 0) ∧ t.frames = [] ∧ t.status = { err := 0, paddet := false, errs := false, busy := false } ∧
    (∀ a, Memory.cell? t.inMem a = none ∧ t.outByte? a = none ∧ t.coutUnit? a = none)

/-- 70_reset_and_hazards.md R294: every command is defined right after reset, and what the four named ones do there. -/
def Obligations.CommandsRightAfterReset : Prop :=
  ∀ c : Config,
    let s := State.resetWith c
    (∀ i : Instr, ∃ t : State, exec i s = .next t) ∧
    exec .trd s = .next (raised s 1 0 0) ∧
    exec (.fwr 0) s = .next (raised s 5 0x04 2) ∧ exec (.cls 0) s = .next (raised s 5 0x07 2) ∧
    (10 ≤ c.outCap → ∃ t : State, exec .twr s = .next t ∧ t.status.err = 0 ∧ t.outLen = 10 ∧
      OutWritten s t 0 [0x49, 0x44, 0x33, 0, 0, 0, 0, 0, 0, 0])

/-! ### The host's accesses -/

/-- 10_state.md section 1: host writes of RPTR, IN_LEN and OUT_LEN are clamped, and change nothing else. -/
def Obligations.HostWritesOfStreamRegistersAreClamped : Prop :=
  ∀ (s : State) (v : Word), s.status.busy = false →
    (s.nextAccess = some (.writeReg 5 v) →
      ∃ t : State, step s = .next t ∧ t.rptr.toNat = min v.toNat s.inLen.toNat ∧ t = { s.advanceHost with rptr := t.rptr }) ∧
    (s.nextAccess = some (.writeReg 6 v) → s.cfg.Wf →
      ∃ t : State, step s = .next t ∧ t.inLen.toNat = min v.toNat s.cfg.inCap ∧
        t.rptr.toNat = min s.rptr.toNat t.inLen.toNat ∧ t = { s.advanceHost with inLen := t.inLen, rptr := t.rptr }) ∧
    (s.nextAccess = some (.writeReg 7 v) →
      ∃ t : State, step s = .next t ∧ t.outLen = (if v.toNat ≤ s.outLen.toNat then v else s.outLen) ∧
        t = { s.advanceHost with outLen := t.outLen })

/-- 10_state.md section 1, the register map: which field each register number names, with the places of the fields of HDR0 and EXT_CTRL; STATUS's
stand in StatusRegisterLayout. FCOUNT is N, the number of frames. -/
def Obligations.RegisterMapNamesTheRegisters : Prop :=
  ∀ s : State,
    s.readReg 0 = s.cmd ∧ s.readReg 2 = s.arg0 ∧ s.readReg 3 = s.res0 ∧ s.readReg 4 = s.res1 ∧ s.readReg 5 = s.rptr ∧
    s.readReg 6 = s.inLen ∧ s.readReg 7 = s.outLen ∧ s.readReg 8 = s.coutLen ∧
    (s.frames.length < 2 ^ 32 → (s.readReg 9).toNat = s.frames.length) ∧
    (let w := s.readReg 10;
      byteOf w 0 = s.hdr0.verMajor ∧ byteOf w 1 = s.hdr0.verMinor ∧ byteOf w 2 = s.hdr0.hflags ∧ byteOf w 3 = 0) ∧
    s.readReg 11 = s.hdrSize ∧ s.readReg 12 = s.extHsize ∧
    (let w := s.readReg 13;
      w.extractLsb' 0 16 = s.extCtrl.flags ∧ w.getLsbD 16 = s.extCtrl.present ∧ w.extractLsb' 17 15 = 0) ∧
    s.readReg 14 = s.extPad ∧ s.readReg 15 = s.extCrc

/-- 10_state.md section 1: a host read of any register on an idle block returns the register and changes nothing of the block. -/
def Obligations.HostReadsOfRegistersReturnTheRegister : Prop :=
  ∀ (s : State) (n : Nat), s.status.busy = false → s.nextAccess = some (.readReg n) →
    step s = .next { s.advanceHost with hostSeen := some (.word (s.readReg n)) }

/-- 20_memory.md section 3: reads of IN have no side effects and are idempotent. A host read below IN_CAP returns a byte and changes nothing of the
block, and the same read in any state with the same IN, IN_LEN and resets so far, the state after the read among them, returns the same byte,
also at and past IN_LEN, where the byte itself is free (log 5). -/
def Obligations.HostReadsOfInputAreIdempotent : Prop :=
  ∀ (s : State) (a : Nat), s.status.busy = false → s.nextAccess = some (.readIn a) → a < s.cfg.inCap →
    ∃ b : Byte, step s = .next { s.advanceHost with hostSeen := some (.byte b) } ∧
      ∀ u : State, u.inMem = s.inMem → u.inLen = s.inLen → u.resets = s.resets → u.cfg = s.cfg → u.status.busy = false →
        u.nextAccess = some (.readIn a) → step u = .next { u.advanceHost with hostSeen := some (.byte b) }

/-- 10_state.md R36: a read of a register number from 16 up returns 0, and a write is ignored. -/
def Obligations.ReservedRegisterNumbersReadZero : Prop :=
  ∀ (s : State) (n : Nat) (v : Word), 16 ≤ n → s.status.busy = false →
    (s.nextAccess = some (.readReg n) → step s = .next { s.advanceHost with hostSeen := some (.word 0) }) ∧
    (s.nextAccess = some (.writeReg n v) → step s = .next s.advanceHost)

/-- 10_state.md section 1: host writes to STATUS, RES0, RES1, COUT_LEN and FCOUNT are ignored. -/
def Obligations.ReadOnlyRegistersIgnoreHostWrites : Prop :=
  ∀ (s : State) (n : Nat) (v : Word), n = 1 ∨ n = 3 ∨ n = 4 ∨ n = 8 ∨ n = 9 → s.status.busy = false →
    s.nextAccess = some (.writeReg n v) → step s = .next s.advanceHost

/-- 10_state.md section 1: ARG0 and the header registers read back what the host wrote, HDR0 without bits [31:24] and EXT_CTRL without bits
[31:17], and no other register changes. -/
def Obligations.HeaderRegistersReadBackWhatWasWritten : Prop :=
  ∀ (s : State) (n : Nat) (v : Word), n = 2 ∨ (10 ≤ n ∧ n ≤ 15) → s.status.busy = false →
    s.nextAccess = some (.writeReg n v) →
    ∃ t : State, step s = .next t ∧
      t.readReg n = v &&& (if n = 10 then 0x00FFFFFF else if n = 13 then 0x0001FFFF else 0xFFFFFFFF) ∧
      (∀ m, m ≠ n → t.readReg m = s.readReg m) ∧ t.frames = s.frames ∧ t.inMem = s.inMem ∧ t.outMem = s.outMem ∧
      t.coutMem = s.coutMem

/-- 10_state.md section 1, STATUS: the places of its fields in the register, and zero above them. -/
def Obligations.StatusRegisterLayout : Prop :=
  ∀ s : State,
    let w := s.readReg 1
    w.extractLsb' 0 4 = s.status.err ∧ w.getLsbD 4 = s.status.paddet ∧ w.getLsbD 5 = s.status.errs ∧
      w.getLsbD 6 = s.status.busy ∧ w.extractLsb' 7 25 = 0

/-- 10_state.md R41: the three store operations, with the conditions under which the host has them; where one fails, the model refuses
by name (log 8). -/
def Obligations.HostStoreOperations : Prop :=
  ∀ (s : State) (k : Nat) (id : Bytes4) (flags : Bytes2) (data idL flagsL : List Byte) (term : Byte), s.status.busy = false →
    (∀ f : Frame, s.nextAccess = some (.readFrame k) → s.frames[k]? = some f →
      step s = .next { s.advanceHost with hostSeen := some (.frame f) }) ∧
    (s.nextAccess = some (.writeFrame k id.toList flags.toList data term) → k < s.frames.length →
      data.length ≤ s.cfg.maxPayload → ∃ t : State, step s = .next t ∧ t.frames.length = s.frames.length ∧
        t.frames[k]? = some ⟨id, flags, data, term⟩ ∧ (∀ j, j ≠ k → t.frames[j]? = s.frames[j]?) ∧
        t = { s.advanceHost with frames := t.frames }) ∧
    (s.nextAccess = some (.appendFrame id.toList flags.toList data term) → s.frames.length < s.cfg.maxFrames →
      data.length ≤ s.cfg.maxPayload →
      step s = .next { s.advanceHost with frames := s.frames ++ [⟨id, flags, data, term⟩] }) ∧
    (s.nextAccess = some (.readFrame k) → s.frames.length ≤ k → step s = .refused .storeOperationCondition) ∧
    (s.nextAccess = some (.writeFrame k idL flagsL data term) →
      s.frames.length ≤ k ∨ idL.length ≠ 4 ∨ flagsL.length ≠ 2 ∨ s.cfg.maxPayload < data.length →
      step s = .refused .storeOperationCondition) ∧
    (s.nextAccess = some (.appendFrame idL flagsL data term) →
      s.cfg.maxFrames ≤ s.frames.length ∨ idL.length ≠ 4 ∨ flagsL.length ≠ 2 ∨ s.cfg.maxPayload < data.length →
      step s = .refused .storeOperationCondition)

/-- 20_memory.md section 1, IN: a host write below IN_CAP changes that byte and no other; at IN_CAP and above it is not performed; a host read
below IN_LEN returns the byte. -/
def Obligations.HostAccessesOfInput : Prop :=
  ∀ (s : State) (a : Nat) (b : Byte), s.status.busy = false →
    (s.nextAccess = some (.writeIn a b) → a < s.cfg.inCap →
      ∃ t : State, step s = .next t ∧ t.inByte a = b ∧ (∀ c, c ≠ a → t.inByte c = s.inByte c) ∧
        t = { s.advanceHost with inMem := t.inMem }) ∧
    (s.nextAccess = some (.writeIn a b) → s.cfg.inCap ≤ a → step s = .next s.advanceHost) ∧
    (s.nextAccess = some (.readIn a) → a < s.inLen.toNat →
      step s = .next { s.advanceHost with hostSeen := some (.byte (s.inByte a)) })

/-- 20_memory.md section 1, OUT and COUT: a host read below the length returns the byte or unit the block wrote, and changes no state of the
block. -/
def Obligations.HostReadsOfOutputs : Prop :=
  ∀ (s : State) (a : Nat), s.status.busy = false →
    (∀ b : Byte, s.nextAccess = some (.readOut a) → a < s.outLen.toNat → s.outByte? a = some b →
      step s = .next { s.advanceHost with hostSeen := some (.byte b) }) ∧
    ∀ u : CodeUnit, s.nextAccess = some (.readCout a) → a < s.coutLen.toNat → s.coutUnit? a = some u →
      step s = .next { s.advanceHost with hostSeen := some (.unit u) }

/-- 30_encoding.md Part A, the pseudo-operations, as the lists of accesses that log 2 makes of them: LOADIN leaves the bytes in IN, IN_LEN at their end,
and RPTR cut to it; CLROUT empties OUT; ISSUE performs the command; nothing else changes. -/
def Obligations.PseudoOperationsExpandToAccesses : Prop :=
  ∀ s : State, s.status.busy = false →
    (∀ (a : Nat) (bs : List Byte), s.cfg.Wf → a + bs.length ≤ s.cfg.inCap →
      ∃ t : State, s.performAll (loadIn a bs) = some t ∧ t.inLen.toNat = a + bs.length ∧
        t.rptr.toNat = min s.rptr.toNat (a + bs.length) ∧ (∀ j (h : j < bs.length), t.inByte (a + j) = bs[j]) ∧
        (∀ b, b < a ∨ a + bs.length ≤ b → t.inByte b = s.inByte b) ∧
        t = { s with inMem := t.inMem, inLen := t.inLen, rptr := t.rptr }) ∧
    s.performAll clrOut = some { s with outLen := 0 } ∧
    ∀ (i : Instr) (t : State), i.WellFormed → exec i { s with cmd := encode i } = .next t → s.performAll (issueCmd i) = some t

/-- 70_reset_and_hazards.md section 3: the host has no access while BUSY = 1; the model refuses by name (log 7). The reset signal still
reaches the block. -/
def Obligations.NoHostAccessWhileBusy : Prop :=
  ∀ (s : State) (a : HostAccess), s.status.busy = true → s.nextAccess = some a →
    (a ≠ .resetSignal → step s = .refused .hostAccessWhileBusy) ∧ (a = .resetSignal → ∃ t : State, step s = .next t)

/-- 60_exceptions.md section 6, MODEL's choice of log 2 for the form: with no access to come, the block is idle and holds its state. -/
def Obligations.IdleBlockHoldsItsState : Prop :=
  ∀ s : State, s.nextAccess = none → step s = .next s

/-- 30_encoding.md Part A, BRERR, in the model's form of log 13: the host goes on at the label exactly when STATUS.ERR is not 0, and the block's
state is untouched. -/
def Obligations.BrerrBranchesOnTheErrorCode : Prop :=
  ∀ (s : State) (label : Nat), s.status.busy = false → s.nextAccess = some (.brErr label) →
    ∃ t : State, step s = .next t ∧ t.hostPos = (if s.status.err = 0 then s.hostPos + 1 else label) ∧
      t = { s with hostPos := t.hostPos, hostSeen := some (.word (s.readReg 1)) }
end

