-- ==== Sys2Proof/Laws/Bytes.lean ====
section
/-!
SUPPORT. The laws of byte order and of the synchsafe functions: bounds, and which conversions undo each other.
-/

namespace Sys2Proof.Machine

theorem bytes4_toNat_lt (b : Bytes4) :
    b.b0.toNat < 256 ∧ b.b1.toNat < 256 ∧ b.b2.toNat < 256 ∧ b.b3.toNat < 256 :=
  ⟨b.b0.isLt, b.b1.isLt, b.b2.isLt, b.b3.isLt⟩

theorem bytes4_ext {a b : Bytes4} (h0 : a.b0.toNat = b.b0.toNat) (h1 : a.b1.toNat = b.b1.toNat)
    (h2 : a.b2.toNat = b.b2.toNat) (h3 : a.b3.toNat = b.b3.toNat) : a = b := by
  cases a
  cases b
  simp_all [BitVec.toNat_eq]

theorem bytes2_ext {a b : Bytes2} (h0 : a.b0.toNat = b.b0.toNat) (h1 : a.b1.toNat = b.b1.toNat) : a = b := by
  cases a
  cases b
  simp_all [BitVec.toNat_eq]

@[simp] theorem bytes4_length_toList (b : Bytes4) : b.toList.length = 4 := rfl
@[simp] theorem bytes2_length_toList (b : Bytes2) : b.toList.length = 2 := rfl

@[simp] theorem be32bytes_b0 (v : Nat) : (be32bytes v).b0.toNat = v / 2 ^ 24 % 256 := by simp [be32bytes]
@[simp] theorem be32bytes_b1 (v : Nat) : (be32bytes v).b1.toNat = v / 2 ^ 16 % 256 := by simp [be32bytes]
@[simp] theorem be32bytes_b2 (v : Nat) : (be32bytes v).b2.toNat = v / 2 ^ 8 % 256 := by simp [be32bytes]
@[simp] theorem be32bytes_b3 (v : Nat) : (be32bytes v).b3.toNat = v % 256 := by simp [be32bytes]

theorem be32_lt (b : Bytes4) : be32 b < 2 ^ 32 := by
  obtain ⟨h0, h1, h2, h3⟩ := bytes4_toNat_lt b
  simp only [be32]
  omega

theorem be16_lt (b : Bytes2) : be16 b < 2 ^ 16 := by
  have h0 := b.b0.isLt
  have h1 := b.b1.isLt
  simp only [be16]
  omega

/-- A 32-bit value written big-endian reads back (00_scope.md R9). -/
theorem be32_be32bytes {v : Nat} (h : v < 2 ^ 32) : be32 (be32bytes v) = v := by
  simp only [be32, be32bytes_b0, be32bytes_b1, be32bytes_b2, be32bytes_b3]
  omega

/-- Four bytes read big-endian are written back unchanged. -/
theorem be32bytes_be32 (b : Bytes4) : be32bytes (be32 b) = b := by
  obtain ⟨h0, h1, h2, h3⟩ := bytes4_toNat_lt b
  apply bytes4_ext <;>
    simp only [be32, be32bytes_b0, be32bytes_b1, be32bytes_b2, be32bytes_b3] <;> omega

/-- Two bytes read big-endian are written back unchanged. -/
theorem be16bytes_be16 (b : Bytes2) : be16bytes (be16 b) = b := by
  have h0 := b.b0.isLt
  have h1 := b.b1.isLt
  apply bytes2_ext <;> simp only [be16, be16bytes, BitVec.toNat_ofNat] <;> omega

/-- Packing four bytes in a register and taking them out again is the identity (20_memory.md R68). -/
theorem unpack4_pack4 (b : Bytes4) : unpack4 (pack4 b) = b := by
  have h := be32_lt b
  rw [unpack4, pack4, BitVec.toNat_ofNat, Nat.mod_eq_of_lt h, be32bytes_be32]

theorem low7_lt (b : Byte) : low7 b < 128 := Nat.mod_lt _ (by decide)

theorem topBit_le (b : Byte) : topBit b ≤ 1 := by
  have := b.isLt
  simp only [topBit]
  omega

/-- A synchsafe value is below 2^28 (40_synchsafe.md R123). -/
theorem ssDecode_lt (b : Bytes4) : ssDecode b < 2 ^ 28 := by
  have h0 := low7_lt b.b0
  have h1 := low7_lt b.b1
  have h2 := low7_lt b.b2
  have h3 := low7_lt b.b3
  simp only [ssDecode]
  omega

@[simp] theorem ssEncode_b0 (x : Nat) : (ssEncode x).b0.toNat = x / 2 ^ 21 % 128 := by
  simp only [ssEncode, BitVec.toNat_ofNat]
  omega
@[simp] theorem ssEncode_b1 (x : Nat) : (ssEncode x).b1.toNat = x / 2 ^ 14 % 128 := by
  simp only [ssEncode, BitVec.toNat_ofNat]
  omega
@[simp] theorem ssEncode_b2 (x : Nat) : (ssEncode x).b2.toNat = x / 2 ^ 7 % 128 := by
  simp only [ssEncode, BitVec.toNat_ofNat]
  omega
@[simp] theorem ssEncode_b3 (x : Nat) : (ssEncode x).b3.toNat = x % 128 := by
  simp only [ssEncode, BitVec.toNat_ofNat]
  omega

/-- Encoding then decoding gives the value back, below 2^28 (40_synchsafe.md R126). -/
theorem ssDecode_ssEncode {x : Nat} (h : x < 2 ^ 28) : ssDecode (ssEncode x) = x := by
  simp only [ssDecode, low7, ssEncode_b0, ssEncode_b1, ssEncode_b2, ssEncode_b3]
  omega

/-- An encoded field has every top bit clear. -/
theorem topBits_ssEncode (x : Nat) : topBits (ssEncode x) = 0 := by
  simp only [topBits, topBit, ssEncode_b0, ssEncode_b1, ssEncode_b2, ssEncode_b3]
  omega

/-- What the bytes of a re-encoded field are: the bytes with their top bits cleared. -/
theorem ssEncode_ssDecode_bytes (b : Bytes4) :
    (ssEncode (ssDecode b)).b0.toNat = low7 b.b0 ∧ (ssEncode (ssDecode b)).b1.toNat = low7 b.b1 ∧
      (ssEncode (ssDecode b)).b2.toNat = low7 b.b2 ∧ (ssEncode (ssDecode b)).b3.toNat = low7 b.b3 := by
  have h0 := low7_lt b.b0
  have h1 := low7_lt b.b1
  have h2 := low7_lt b.b2
  have h3 := low7_lt b.b3
  simp only [ssEncode_b0, ssEncode_b1, ssEncode_b2, ssEncode_b3, ssDecode]
  omega

theorem topBits_eq_zero_iff (b : Bytes4) :
    topBits b = 0 ↔ b.b0.toNat < 128 ∧ b.b1.toNat < 128 ∧ b.b2.toNat < 128 ∧ b.b3.toNat < 128 := by
  have := bytes4_toNat_lt b
  simp only [topBits, topBit]
  omega

/-- A field with every top bit clear is re-encoded unchanged. -/
theorem ssEncode_ssDecode {b : Bytes4} (h : topBits b = 0) : ssEncode (ssDecode b) = b := by
  obtain ⟨h0, h1, h2, h3⟩ := (topBits_eq_zero_iff b).1 h
  obtain ⟨e0, e1, e2, e3⟩ := ssEncode_ssDecode_bytes b
  simp only [low7] at e0 e1 e2 e3
  apply bytes4_ext <;> omega

/-- The encoded field as one number is below 2^31. -/
theorem be32_ssEncode_lt (x : Nat) : be32 (ssEncode x) < 2 ^ 31 := by
  simp only [be32, ssEncode_b0, ssEncode_b1, ssEncode_b2, ssEncode_b3]
  omega

theorem latin1_toNat (b : Byte) : (latin1 b).toNat = b.toNat := by
  have := b.isLt
  simp only [latin1, BitVec.toNat_ofNat]
  omega

theorem le16_toNat (lo hi : Byte) : (le16 lo hi).toNat = lo.toNat + hi.toNat * 256 := by
  have := lo.isLt
  have := hi.isLt
  simp only [le16, BitVec.toNat_ofNat]
  omega

theorem allZero_iff (xs : List Byte) : allZero xs = true ↔ ∀ b ∈ xs, b = 0 := by simp [allZero]

@[simp] theorem length_id3Bytes : id3Bytes.length = 3 := rfl

/-- A value that fits is not saturated (60_exceptions.md R267). -/
theorem saturate_of_lt {n : Nat} (h : n < 2 ^ 32) : saturate n = BitVec.ofNat 32 n := if_pos h

theorem saturate_toNat (n : Nat) : (saturate n).toNat = min n (2 ^ 32 - 1) := by
  unfold saturate
  split
  · rw [BitVec.toNat_ofNat]
    omega
  · simp
    omega

@[simp] theorem Frame.length_bytes (f : Frame) : f.bytes.length = f.extent := by
  simp [Frame.bytes, Frame.extent]
  omega

end Sys2Proof.Machine
end

