-- ==== Sys2Proof/Laws/Memory.lean ====
section
/-!
SUPPORT. The laws of memories: a read after a write, a read after a run of writes, and the canonical form kept by every operation.
-/

namespace Sys2Proof.Machine

variable {w : Nat}

@[simp] theorem Memory.cell?_nil (a : Nat) : Memory.cell? ([] : Memory w) a = none := rfl

/-- A write changes the cell it names and no other. -/
theorem Memory.cell?_set (m : Memory w) (a : Nat) (v : BitVec w) (b : Nat) :
    Memory.cell? (Memory.set m a v) b = if b = a then some v else Memory.cell? m b := by
  induction m with
  | nil => simp [Memory.set, Memory.cell?]
  | cons c m ih =>
    obtain ⟨c, u⟩ := c
    by_cases h1 : a < c
    · simp [Memory.set, h1, Memory.cell?]
    · by_cases h2 : a = c
      · subst h2
        by_cases h3 : b = a <;> simp [Memory.set, Memory.cell?, h3]
      · by_cases h3 : b = c
        · subst h3
          have : ¬ b = a := fun h => h2 h.symm
          simp [Memory.set, h1, h2, Memory.cell?, this]
        · simp [Memory.set, h1, h2, h3, Memory.cell?, ih]

@[simp] theorem Memory.cell?_set_same (m : Memory w) (a : Nat) (v : BitVec w) :
    Memory.cell? (Memory.set m a v) a = some v := by simp [Memory.cell?_set]

theorem Memory.cell?_set_other (m : Memory w) {a b : Nat} (v : BitVec w) (h : b ≠ a) :
    Memory.cell? (Memory.set m a v) b = Memory.cell? m b := by simp [Memory.cell?_set, h]

@[simp] theorem Memory.setRun_nil (m : Memory w) (a : Nat) : Memory.setRun m a [] = m := rfl

@[simp] theorem Memory.setRun_cons (m : Memory w) (a : Nat) (v : BitVec w) (vs : List (BitVec w)) :
    Memory.setRun m a (v :: vs) = Memory.setRun (Memory.set m a v) (a + 1) vs := rfl

/-- Outside a run nothing changes. -/
theorem Memory.cell?_setRun_outside (m : Memory w) (a : Nat) (vs : List (BitVec w)) (b : Nat)
    (h : b < a ∨ a + vs.length ≤ b) : Memory.cell? (Memory.setRun m a vs) b = Memory.cell? m b := by
  induction vs generalizing m a with
  | nil => rfl
  | cons v vs ih =>
    simp only [List.length_cons] at h
    rw [Memory.setRun_cons, ih _ _ (by omega), Memory.cell?_set_other _ _ (by omega)]

/-- Inside a run each cell holds the run's value for it. -/
theorem Memory.cell?_setRun_inside (m : Memory w) (a : Nat) (vs : List (BitVec w)) (j : Nat) (v : BitVec w)
    (h : vs[j]? = some v) : Memory.cell? (Memory.setRun m a vs) (a + j) = some v := by
  induction vs generalizing m a j with
  | nil => simp at h
  | cons u vs ih =>
    cases j with
    | zero =>
      obtain rfl : u = v := by simpa using h
      rw [Memory.setRun_cons, Memory.cell?_setRun_outside _ _ _ _ (by omega), Nat.add_zero, Memory.cell?_set_same]
    | succ j =>
      have := ih (Memory.set m a u) (a + 1) j (by simpa using h)
      rwa [show a + 1 + j = a + (j + 1) by omega] at this

/-- A cell that was written stays written. -/
theorem Memory.isSome_setRun (m : Memory w) (a : Nat) (vs : List (BitVec w)) (b : Nat)
    (h : (Memory.cell? m b).isSome = true ∨ (a ≤ b ∧ b < a + vs.length)) :
    (Memory.cell? (Memory.setRun m a vs) b).isSome = true := by
  by_cases hb : a ≤ b ∧ b < a + vs.length
  · have hj : vs[b - a]? = some vs[b - a] := List.getElem?_eq_getElem (by omega)
    have := Memory.cell?_setRun_inside m a vs (b - a) _ hj
    rw [show a + (b - a) = b by omega] at this
    simp [this]
  · rw [Memory.cell?_setRun_outside _ _ _ _ (by omega)]
    exact h.resolve_right hb

theorem Memory.wf_nil : Memory.wf ([] : Memory w) := List.Pairwise.nil

/-- What an element of a written memory can be: the new cell, or an old one. -/
theorem Memory.mem_set {m : Memory w} {a : Nat} {v : BitVec w} {c : Nat × BitVec w} (h : c ∈ Memory.set m a v) :
    c = (a, v) ∨ c ∈ m := by
  induction m with
  | nil => simpa [Memory.set] using h
  | cons d m ih =>
    obtain ⟨d, u⟩ := d
    simp only [Memory.set] at h
    split at h
    · simpa using h
    · split at h
      · simp only [List.mem_cons] at h ⊢
        exact h.imp id Or.inr
      · simp only [List.mem_cons] at h ⊢
        obtain h | h := h
        · exact .inr (.inl h)
        · exact (ih h).imp id Or.inr

/-- A write keeps the canonical form. -/
theorem Memory.wf_set {m : Memory w} (a : Nat) (v : BitVec w) (h : Memory.wf m) : Memory.wf (Memory.set m a v) := by
  induction m with
  | nil => simp [Memory.set, Memory.wf]
  | cons d m ih =>
    obtain ⟨d, u⟩ := d
    have hd := List.pairwise_cons.1 h
    simp only [Memory.set]
    split
    · refine List.pairwise_cons.2 ⟨fun c hc => ?_, h⟩
      obtain rfl | hc := List.mem_cons.1 hc
      · assumption
      · exact Nat.lt_trans ‹a < d› (hd.1 c hc)
    · split
      · subst d
        exact List.pairwise_cons.2 ⟨hd.1, hd.2⟩
      · refine List.pairwise_cons.2 ⟨fun c hc => ?_, ih hd.2⟩
        obtain rfl | hc := Memory.mem_set hc
        · simp only
          omega
        · exact hd.1 c hc

/-- A run of writes keeps the canonical form. -/
theorem Memory.wf_setRun {m : Memory w} (a : Nat) (vs : List (BitVec w)) (h : Memory.wf m) :
    Memory.wf (Memory.setRun m a vs) := by
  induction vs generalizing m a with
  | nil => exact h
  | cons v vs ih => exact ih (a + 1) (Memory.wf_set a v h)

theorem Memory.below_nil (cap : Nat) : Memory.below ([] : Memory w) cap := by simp [Memory.below]

theorem Memory.below_set {m : Memory w} {cap a : Nat} (v : BitVec w) (h : Memory.below m cap) (ha : a < cap) :
    Memory.below (Memory.set m a v) cap := by
  intro c hc
  obtain rfl | hc := Memory.mem_set hc
  · exact ha
  · exact h c hc

theorem Memory.below_setRun {m : Memory w} {cap a : Nat} (vs : List (BitVec w)) (h : Memory.below m cap)
    (ha : a + vs.length ≤ cap) : Memory.below (Memory.setRun m a vs) cap := by
  induction vs generalizing m a with
  | nil => exact h
  | cons v vs ih =>
    simp only [List.length_cons] at ha
    exact ih (Memory.below_set v h (by omega)) (by omega)

theorem Memory.filled_zero (m : Memory w) : Memory.filled m 0 := fun _ h => absurd h (Nat.not_lt_zero _)

theorem Memory.filled_mono {m : Memory w} {n k : Nat} (h : Memory.filled m n) (hk : k ≤ n) : Memory.filled m k :=
  fun a ha => h a (Nat.lt_of_lt_of_le ha hk)

/-- Appending a run at the end of a filled prefix fills the longer one. -/
theorem Memory.filled_setRun {m : Memory w} {n : Nat} (vs : List (BitVec w)) (h : Memory.filled m n) :
    Memory.filled (Memory.setRun m n vs) (n + vs.length) := by
  intro a ha
  refine Memory.isSome_setRun m n vs a ?_
  by_cases hn : a < n
  · exact .inl (h a hn)
  · exact .inr ⟨by omega, ha⟩

/-- Canonical memories that read alike are the same list. -/
theorem Memory.ext_of_wf {m k : Memory w} (hm : Memory.wf m) (hk : Memory.wf k)
    (h : ∀ a, Memory.cell? m a = Memory.cell? k a) : m = k := by
  have none_below : ∀ (l : Memory w) (a : Nat), (∀ c ∈ l, a < c.1) → Memory.cell? l a = none := by
    intro l a hl
    induction l with
    | nil => rfl
    | cons c l ih =>
      have := hl c (by simp)
      rw [Memory.cell?, if_neg (by omega)]
      exact ih fun d hd => hl d (by simp [hd])
  induction m generalizing k with
  | nil =>
    cases k with
    | nil => rfl
    | cons c k => simpa [Memory.cell?] using h c.1
  | cons c m ih =>
    cases k with
    | nil => simpa [Memory.cell?] using h c.1
    | cons d k =>
      have hc := List.pairwise_cons.1 hm
      have hd := List.pairwise_cons.1 hk
      obtain ⟨a, u⟩ := c
      obtain ⟨b, v⟩ := d
      have hab : a = b := by
        rcases Nat.lt_trichotomy a b with hlt | heq | hlt
        · have := h a
          rw [Memory.cell?, if_pos rfl, none_below _ a (by
            intro e he
            obtain rfl | he := List.mem_cons.1 he
            · exact hlt
            · exact Nat.lt_trans hlt (hd.1 e he))] at this
          simp at this
        · exact heq
        · have := h b
          rw [none_below _ b (by
            intro e he
            obtain rfl | he := List.mem_cons.1 he
            · exact hlt
            · exact Nat.lt_trans hlt (hc.1 e he)), Memory.cell?, if_pos rfl] at this
          simp at this
      subst hab
      have huv : u = v := by simpa [Memory.cell?] using h a
      subst huv
      congr 1
      refine ih hc.2 hd.2 fun e => ?_
      by_cases hea : e = a
      · subst hea
        rw [none_below m e hc.1, none_below k e hd.1]
      · simpa [Memory.cell?, hea] using h e

end Sys2Proof.Machine
end

