-- ==== Sys2Proof/Laws/State.lean ====
section
/-!
SUPPORT. One lemma per field per update of State, true by rfl, so that no proof unfolds a record update.
-/

namespace Sys2Proof.Machine

/-! ### `raise` (00_scope.md R12) -/

@[simp] theorem State.raise_cfg (s : State) (e : CmdError) : (s.raise e).cfg = s.cfg := rfl
@[simp] theorem State.raise_cmd (s : State) (e : CmdError) : (s.raise e).cmd = s.cmd := rfl
@[simp] theorem State.raise_status (s : State) (e : CmdError) : (s.raise e).status = s.status.afterError e := rfl
@[simp] theorem State.raise_arg0 (s : State) (e : CmdError) : (s.raise e).arg0 = s.arg0 := rfl
@[simp] theorem State.raise_res0 (s : State) (e : CmdError) : (s.raise e).res0 = saturate e.info0 := rfl
@[simp] theorem State.raise_res1 (s : State) (e : CmdError) : (s.raise e).res1 = saturate e.info1 := rfl
@[simp] theorem State.raise_rptr (s : State) (e : CmdError) : (s.raise e).rptr = s.rptr := rfl
@[simp] theorem State.raise_inLen (s : State) (e : CmdError) : (s.raise e).inLen = s.inLen := rfl
@[simp] theorem State.raise_outLen (s : State) (e : CmdError) : (s.raise e).outLen = s.outLen := rfl
@[simp] theorem State.raise_coutLen (s : State) (e : CmdError) : (s.raise e).coutLen = s.coutLen := rfl
@[simp] theorem State.raise_hdr0 (s : State) (e : CmdError) : (s.raise e).hdr0 = s.hdr0 := rfl
@[simp] theorem State.raise_hdrSize (s : State) (e : CmdError) : (s.raise e).hdrSize = s.hdrSize := rfl
@[simp] theorem State.raise_extHsize (s : State) (e : CmdError) : (s.raise e).extHsize = s.extHsize := rfl
@[simp] theorem State.raise_extCtrl (s : State) (e : CmdError) : (s.raise e).extCtrl = s.extCtrl := rfl
@[simp] theorem State.raise_extPad (s : State) (e : CmdError) : (s.raise e).extPad = s.extPad := rfl
@[simp] theorem State.raise_extCrc (s : State) (e : CmdError) : (s.raise e).extCrc = s.extCrc := rfl
@[simp] theorem State.raise_frames (s : State) (e : CmdError) : (s.raise e).frames = s.frames := rfl
@[simp] theorem State.raise_inMem (s : State) (e : CmdError) : (s.raise e).inMem = s.inMem := rfl
@[simp] theorem State.raise_outMem (s : State) (e : CmdError) : (s.raise e).outMem = s.outMem := rfl
@[simp] theorem State.raise_coutMem (s : State) (e : CmdError) : (s.raise e).coutMem = s.coutMem := rfl
@[simp] theorem State.raise_hostProg (s : State) (e : CmdError) : (s.raise e).hostProg = s.hostProg := rfl
@[simp] theorem State.raise_hostPos (s : State) (e : CmdError) : (s.raise e).hostPos = s.hostPos := rfl
@[simp] theorem State.raise_hostSeen (s : State) (e : CmdError) : (s.raise e).hostSeen = s.hostSeen := rfl
@[simp] theorem State.raise_resets (s : State) (e : CmdError) : (s.raise e).resets = s.resets := rfl
@[simp] theorem State.raise_freeReads (s : State) (e : CmdError) : (s.raise e).freeReads = s.freeReads := rfl

/-! ### `commit` (00_scope.md R12) -/

@[simp] theorem State.commit_cfg (s : State) : (s.commit).cfg = s.cfg := rfl
@[simp] theorem State.commit_cmd (s : State) : (s.commit).cmd = s.cmd := rfl
@[simp] theorem State.commit_status (s : State) : (s.commit).status = s.status.afterSuccess := rfl
@[simp] theorem State.commit_arg0 (s : State) : (s.commit).arg0 = s.arg0 := rfl
@[simp] theorem State.commit_res0 (s : State) : (s.commit).res0 = s.res0 := rfl
@[simp] theorem State.commit_res1 (s : State) : (s.commit).res1 = s.res1 := rfl
@[simp] theorem State.commit_rptr (s : State) : (s.commit).rptr = s.rptr := rfl
@[simp] theorem State.commit_inLen (s : State) : (s.commit).inLen = s.inLen := rfl
@[simp] theorem State.commit_outLen (s : State) : (s.commit).outLen = s.outLen := rfl
@[simp] theorem State.commit_coutLen (s : State) : (s.commit).coutLen = s.coutLen := rfl
@[simp] theorem State.commit_hdr0 (s : State) : (s.commit).hdr0 = s.hdr0 := rfl
@[simp] theorem State.commit_hdrSize (s : State) : (s.commit).hdrSize = s.hdrSize := rfl
@[simp] theorem State.commit_extHsize (s : State) : (s.commit).extHsize = s.extHsize := rfl
@[simp] theorem State.commit_extCtrl (s : State) : (s.commit).extCtrl = s.extCtrl := rfl
@[simp] theorem State.commit_extPad (s : State) : (s.commit).extPad = s.extPad := rfl
@[simp] theorem State.commit_extCrc (s : State) : (s.commit).extCrc = s.extCrc := rfl
@[simp] theorem State.commit_frames (s : State) : (s.commit).frames = s.frames := rfl
@[simp] theorem State.commit_inMem (s : State) : (s.commit).inMem = s.inMem := rfl
@[simp] theorem State.commit_outMem (s : State) : (s.commit).outMem = s.outMem := rfl
@[simp] theorem State.commit_coutMem (s : State) : (s.commit).coutMem = s.coutMem := rfl
@[simp] theorem State.commit_hostProg (s : State) : (s.commit).hostProg = s.hostProg := rfl
@[simp] theorem State.commit_hostPos (s : State) : (s.commit).hostPos = s.hostPos := rfl
@[simp] theorem State.commit_hostSeen (s : State) : (s.commit).hostSeen = s.hostSeen := rfl
@[simp] theorem State.commit_resets (s : State) : (s.commit).resets = s.resets := rfl
@[simp] theorem State.commit_freeReads (s : State) : (s.commit).freeReads = s.freeReads := rfl

/-! ### the two results -/

@[simp] theorem State.setResults_cfg (s : State) (r0 r1 : Nat) : (s.setResults r0 r1).cfg = s.cfg := rfl
@[simp] theorem State.setResults_cmd (s : State) (r0 r1 : Nat) : (s.setResults r0 r1).cmd = s.cmd := rfl
@[simp] theorem State.setResults_status (s : State) (r0 r1 : Nat) : (s.setResults r0 r1).status = s.status := rfl
@[simp] theorem State.setResults_arg0 (s : State) (r0 r1 : Nat) : (s.setResults r0 r1).arg0 = s.arg0 := rfl
@[simp] theorem State.setResults_res0 (s : State) (r0 r1 : Nat) : (s.setResults r0 r1).res0 = BitVec.ofNat 32 r0 := rfl
@[simp] theorem State.setResults_res1 (s : State) (r0 r1 : Nat) : (s.setResults r0 r1).res1 = BitVec.ofNat 32 r1 := rfl
@[simp] theorem State.setResults_rptr (s : State) (r0 r1 : Nat) : (s.setResults r0 r1).rptr = s.rptr := rfl
@[simp] theorem State.setResults_inLen (s : State) (r0 r1 : Nat) : (s.setResults r0 r1).inLen = s.inLen := rfl
@[simp] theorem State.setResults_outLen (s : State) (r0 r1 : Nat) : (s.setResults r0 r1).outLen = s.outLen := rfl
@[simp] theorem State.setResults_coutLen (s : State) (r0 r1 : Nat) : (s.setResults r0 r1).coutLen = s.coutLen := rfl
@[simp] theorem State.setResults_hdr0 (s : State) (r0 r1 : Nat) : (s.setResults r0 r1).hdr0 = s.hdr0 := rfl
@[simp] theorem State.setResults_hdrSize (s : State) (r0 r1 : Nat) : (s.setResults r0 r1).hdrSize = s.hdrSize := rfl
@[simp] theorem State.setResults_extHsize (s : State) (r0 r1 : Nat) : (s.setResults r0 r1).extHsize = s.extHsize := rfl
@[simp] theorem State.setResults_extCtrl (s : State) (r0 r1 : Nat) : (s.setResults r0 r1).extCtrl = s.extCtrl := rfl
@[simp] theorem State.setResults_extPad (s : State) (r0 r1 : Nat) : (s.setResults r0 r1).extPad = s.extPad := rfl
@[simp] theorem State.setResults_extCrc (s : State) (r0 r1 : Nat) : (s.setResults r0 r1).extCrc = s.extCrc := rfl
@[simp] theorem State.setResults_frames (s : State) (r0 r1 : Nat) : (s.setResults r0 r1).frames = s.frames := rfl
@[simp] theorem State.setResults_inMem (s : State) (r0 r1 : Nat) : (s.setResults r0 r1).inMem = s.inMem := rfl
@[simp] theorem State.setResults_outMem (s : State) (r0 r1 : Nat) : (s.setResults r0 r1).outMem = s.outMem := rfl
@[simp] theorem State.setResults_coutMem (s : State) (r0 r1 : Nat) : (s.setResults r0 r1).coutMem = s.coutMem := rfl
@[simp] theorem State.setResults_hostProg (s : State) (r0 r1 : Nat) : (s.setResults r0 r1).hostProg = s.hostProg := rfl
@[simp] theorem State.setResults_hostPos (s : State) (r0 r1 : Nat) : (s.setResults r0 r1).hostPos = s.hostPos := rfl
@[simp] theorem State.setResults_hostSeen (s : State) (r0 r1 : Nat) : (s.setResults r0 r1).hostSeen = s.hostSeen := rfl
@[simp] theorem State.setResults_resets (s : State) (r0 r1 : Nat) : (s.setResults r0 r1).resets = s.resets := rfl
@[simp] theorem State.setResults_freeReads (s : State) (r0 r1 : Nat) : (s.setResults r0 r1).freeReads = s.freeReads := rfl

/-! ### an append to OUT -/

@[simp] theorem State.appendOut_cfg (s : State) (bs : List Byte) : (s.appendOut bs).cfg = s.cfg := rfl
@[simp] theorem State.appendOut_cmd (s : State) (bs : List Byte) : (s.appendOut bs).cmd = s.cmd := rfl
@[simp] theorem State.appendOut_status (s : State) (bs : List Byte) : (s.appendOut bs).status = s.status := rfl
@[simp] theorem State.appendOut_arg0 (s : State) (bs : List Byte) : (s.appendOut bs).arg0 = s.arg0 := rfl
@[simp] theorem State.appendOut_res0 (s : State) (bs : List Byte) : (s.appendOut bs).res0 = s.res0 := rfl
@[simp] theorem State.appendOut_res1 (s : State) (bs : List Byte) : (s.appendOut bs).res1 = s.res1 := rfl
@[simp] theorem State.appendOut_rptr (s : State) (bs : List Byte) : (s.appendOut bs).rptr = s.rptr := rfl
@[simp] theorem State.appendOut_inLen (s : State) (bs : List Byte) : (s.appendOut bs).inLen = s.inLen := rfl
@[simp] theorem State.appendOut_outLen (s : State) (bs : List Byte) : (s.appendOut bs).outLen = BitVec.ofNat 32 (s.outLen.toNat + bs.length) := rfl
@[simp] theorem State.appendOut_coutLen (s : State) (bs : List Byte) : (s.appendOut bs).coutLen = s.coutLen := rfl
@[simp] theorem State.appendOut_hdr0 (s : State) (bs : List Byte) : (s.appendOut bs).hdr0 = s.hdr0 := rfl
@[simp] theorem State.appendOut_hdrSize (s : State) (bs : List Byte) : (s.appendOut bs).hdrSize = s.hdrSize := rfl
@[simp] theorem State.appendOut_extHsize (s : State) (bs : List Byte) : (s.appendOut bs).extHsize = s.extHsize := rfl
@[simp] theorem State.appendOut_extCtrl (s : State) (bs : List Byte) : (s.appendOut bs).extCtrl = s.extCtrl := rfl
@[simp] theorem State.appendOut_extPad (s : State) (bs : List Byte) : (s.appendOut bs).extPad = s.extPad := rfl
@[simp] theorem State.appendOut_extCrc (s : State) (bs : List Byte) : (s.appendOut bs).extCrc = s.extCrc := rfl
@[simp] theorem State.appendOut_frames (s : State) (bs : List Byte) : (s.appendOut bs).frames = s.frames := rfl
@[simp] theorem State.appendOut_inMem (s : State) (bs : List Byte) : (s.appendOut bs).inMem = s.inMem := rfl
@[simp] theorem State.appendOut_outMem (s : State) (bs : List Byte) : (s.appendOut bs).outMem = Memory.setRun s.outMem s.outLen.toNat bs := rfl
@[simp] theorem State.appendOut_coutMem (s : State) (bs : List Byte) : (s.appendOut bs).coutMem = s.coutMem := rfl
@[simp] theorem State.appendOut_hostProg (s : State) (bs : List Byte) : (s.appendOut bs).hostProg = s.hostProg := rfl
@[simp] theorem State.appendOut_hostPos (s : State) (bs : List Byte) : (s.appendOut bs).hostPos = s.hostPos := rfl
@[simp] theorem State.appendOut_hostSeen (s : State) (bs : List Byte) : (s.appendOut bs).hostSeen = s.hostSeen := rfl
@[simp] theorem State.appendOut_resets (s : State) (bs : List Byte) : (s.appendOut bs).resets = s.resets := rfl
@[simp] theorem State.appendOut_freeReads (s : State) (bs : List Byte) : (s.appendOut bs).freeReads = s.freeReads := rfl

/-! ### a replacement of COUT -/

@[simp] theorem State.replaceCout_cfg (s : State) (us : List CodeUnit) : (s.replaceCout us).cfg = s.cfg := rfl
@[simp] theorem State.replaceCout_cmd (s : State) (us : List CodeUnit) : (s.replaceCout us).cmd = s.cmd := rfl
@[simp] theorem State.replaceCout_status (s : State) (us : List CodeUnit) : (s.replaceCout us).status = s.status := rfl
@[simp] theorem State.replaceCout_arg0 (s : State) (us : List CodeUnit) : (s.replaceCout us).arg0 = s.arg0 := rfl
@[simp] theorem State.replaceCout_res0 (s : State) (us : List CodeUnit) : (s.replaceCout us).res0 = s.res0 := rfl
@[simp] theorem State.replaceCout_res1 (s : State) (us : List CodeUnit) : (s.replaceCout us).res1 = s.res1 := rfl
@[simp] theorem State.replaceCout_rptr (s : State) (us : List CodeUnit) : (s.replaceCout us).rptr = s.rptr := rfl
@[simp] theorem State.replaceCout_inLen (s : State) (us : List CodeUnit) : (s.replaceCout us).inLen = s.inLen := rfl
@[simp] theorem State.replaceCout_outLen (s : State) (us : List CodeUnit) : (s.replaceCout us).outLen = s.outLen := rfl
@[simp] theorem State.replaceCout_coutLen (s : State) (us : List CodeUnit) : (s.replaceCout us).coutLen = BitVec.ofNat 32 us.length := rfl
@[simp] theorem State.replaceCout_hdr0 (s : State) (us : List CodeUnit) : (s.replaceCout us).hdr0 = s.hdr0 := rfl
@[simp] theorem State.replaceCout_hdrSize (s : State) (us : List CodeUnit) : (s.replaceCout us).hdrSize = s.hdrSize := rfl
@[simp] theorem State.replaceCout_extHsize (s : State) (us : List CodeUnit) : (s.replaceCout us).extHsize = s.extHsize := rfl
@[simp] theorem State.replaceCout_extCtrl (s : State) (us : List CodeUnit) : (s.replaceCout us).extCtrl = s.extCtrl := rfl
@[simp] theorem State.replaceCout_extPad (s : State) (us : List CodeUnit) : (s.replaceCout us).extPad = s.extPad := rfl
@[simp] theorem State.replaceCout_extCrc (s : State) (us : List CodeUnit) : (s.replaceCout us).extCrc = s.extCrc := rfl
@[simp] theorem State.replaceCout_frames (s : State) (us : List CodeUnit) : (s.replaceCout us).frames = s.frames := rfl
@[simp] theorem State.replaceCout_inMem (s : State) (us : List CodeUnit) : (s.replaceCout us).inMem = s.inMem := rfl
@[simp] theorem State.replaceCout_outMem (s : State) (us : List CodeUnit) : (s.replaceCout us).outMem = s.outMem := rfl
@[simp] theorem State.replaceCout_coutMem (s : State) (us : List CodeUnit) : (s.replaceCout us).coutMem = Memory.setRun s.coutMem 0 us := rfl
@[simp] theorem State.replaceCout_hostProg (s : State) (us : List CodeUnit) : (s.replaceCout us).hostProg = s.hostProg := rfl
@[simp] theorem State.replaceCout_hostPos (s : State) (us : List CodeUnit) : (s.replaceCout us).hostPos = s.hostPos := rfl
@[simp] theorem State.replaceCout_hostSeen (s : State) (us : List CodeUnit) : (s.replaceCout us).hostSeen = s.hostSeen := rfl
@[simp] theorem State.replaceCout_resets (s : State) (us : List CodeUnit) : (s.replaceCout us).resets = s.resets := rfl
@[simp] theorem State.replaceCout_freeReads (s : State) (us : List CodeUnit) : (s.replaceCout us).freeReads = s.freeReads := rfl

/-! ### TRD's commit -/

@[simp] theorem State.storeTag_cfg (s : State) (h : TagHeader) (x : ExtHeader) (b : TagBody) : (s.storeTag h x b).cfg = s.cfg := rfl
@[simp] theorem State.storeTag_cmd (s : State) (h : TagHeader) (x : ExtHeader) (b : TagBody) : (s.storeTag h x b).cmd = s.cmd := rfl
@[simp] theorem State.storeTag_status (s : State) (h : TagHeader) (x : ExtHeader) (b : TagBody) : (s.storeTag h x b).status = { s.status with paddet := b.pad } := rfl
@[simp] theorem State.storeTag_arg0 (s : State) (h : TagHeader) (x : ExtHeader) (b : TagBody) : (s.storeTag h x b).arg0 = s.arg0 := rfl
@[simp] theorem State.storeTag_res0 (s : State) (h : TagHeader) (x : ExtHeader) (b : TagBody) : (s.storeTag h x b).res0 = BitVec.ofNat 32 (10 + h.size) := rfl
@[simp] theorem State.storeTag_res1 (s : State) (h : TagHeader) (x : ExtHeader) (b : TagBody) : (s.storeTag h x b).res1 = BitVec.ofNat 32 (h.size - b.avail) := rfl
@[simp] theorem State.storeTag_rptr (s : State) (h : TagHeader) (x : ExtHeader) (b : TagBody) : (s.storeTag h x b).rptr = BitVec.ofNat 32 b.pos := rfl
@[simp] theorem State.storeTag_inLen (s : State) (h : TagHeader) (x : ExtHeader) (b : TagBody) : (s.storeTag h x b).inLen = s.inLen := rfl
@[simp] theorem State.storeTag_outLen (s : State) (h : TagHeader) (x : ExtHeader) (b : TagBody) : (s.storeTag h x b).outLen = s.outLen := rfl
@[simp] theorem State.storeTag_coutLen (s : State) (h : TagHeader) (x : ExtHeader) (b : TagBody) : (s.storeTag h x b).coutLen = s.coutLen := rfl
@[simp] theorem State.storeTag_hdr0 (s : State) (h : TagHeader) (x : ExtHeader) (b : TagBody) : (s.storeTag h x b).hdr0 = h.hdr0 := rfl
@[simp] theorem State.storeTag_hdrSize (s : State) (h : TagHeader) (x : ExtHeader) (b : TagBody) : (s.storeTag h x b).hdrSize = BitVec.ofNat 32 h.size := rfl
@[simp] theorem State.storeTag_extHsize (s : State) (h : TagHeader) (x : ExtHeader) (b : TagBody) : (s.storeTag h x b).extHsize = BitVec.ofNat 32 x.hsize := rfl
@[simp] theorem State.storeTag_extCtrl (s : State) (h : TagHeader) (x : ExtHeader) (b : TagBody) : (s.storeTag h x b).extCtrl = x.ctrl := rfl
@[simp] theorem State.storeTag_extPad (s : State) (h : TagHeader) (x : ExtHeader) (b : TagBody) : (s.storeTag h x b).extPad = BitVec.ofNat 32 x.pad := rfl
@[simp] theorem State.storeTag_extCrc (s : State) (h : TagHeader) (x : ExtHeader) (b : TagBody) : (s.storeTag h x b).extCrc = BitVec.ofNat 32 x.crc := rfl
@[simp] theorem State.storeTag_frames (s : State) (h : TagHeader) (x : ExtHeader) (b : TagBody) : (s.storeTag h x b).frames = b.frames := rfl
@[simp] theorem State.storeTag_inMem (s : State) (h : TagHeader) (x : ExtHeader) (b : TagBody) : (s.storeTag h x b).inMem = s.inMem := rfl
@[simp] theorem State.storeTag_outMem (s : State) (h : TagHeader) (x : ExtHeader) (b : TagBody) : (s.storeTag h x b).outMem = s.outMem := rfl
@[simp] theorem State.storeTag_coutMem (s : State) (h : TagHeader) (x : ExtHeader) (b : TagBody) : (s.storeTag h x b).coutMem = s.coutMem := rfl
@[simp] theorem State.storeTag_hostProg (s : State) (h : TagHeader) (x : ExtHeader) (b : TagBody) : (s.storeTag h x b).hostProg = s.hostProg := rfl
@[simp] theorem State.storeTag_hostPos (s : State) (h : TagHeader) (x : ExtHeader) (b : TagBody) : (s.storeTag h x b).hostPos = s.hostPos := rfl
@[simp] theorem State.storeTag_hostSeen (s : State) (h : TagHeader) (x : ExtHeader) (b : TagBody) : (s.storeTag h x b).hostSeen = s.hostSeen := rfl
@[simp] theorem State.storeTag_resets (s : State) (h : TagHeader) (x : ExtHeader) (b : TagBody) : (s.storeTag h x b).resets = s.resets := rfl
@[simp] theorem State.storeTag_freeReads (s : State) (h : TagHeader) (x : ExtHeader) (b : TagBody) : (s.storeTag h x b).freeReads = s.freeReads := rfl

/-! ### the host's move to its next place -/

@[simp] theorem State.advanceHost_cfg (s : State) : (s.advanceHost).cfg = s.cfg := rfl
@[simp] theorem State.advanceHost_cmd (s : State) : (s.advanceHost).cmd = s.cmd := rfl
@[simp] theorem State.advanceHost_status (s : State) : (s.advanceHost).status = s.status := rfl
@[simp] theorem State.advanceHost_arg0 (s : State) : (s.advanceHost).arg0 = s.arg0 := rfl
@[simp] theorem State.advanceHost_res0 (s : State) : (s.advanceHost).res0 = s.res0 := rfl
@[simp] theorem State.advanceHost_res1 (s : State) : (s.advanceHost).res1 = s.res1 := rfl
@[simp] theorem State.advanceHost_rptr (s : State) : (s.advanceHost).rptr = s.rptr := rfl
@[simp] theorem State.advanceHost_inLen (s : State) : (s.advanceHost).inLen = s.inLen := rfl
@[simp] theorem State.advanceHost_outLen (s : State) : (s.advanceHost).outLen = s.outLen := rfl
@[simp] theorem State.advanceHost_coutLen (s : State) : (s.advanceHost).coutLen = s.coutLen := rfl
@[simp] theorem State.advanceHost_hdr0 (s : State) : (s.advanceHost).hdr0 = s.hdr0 := rfl
@[simp] theorem State.advanceHost_hdrSize (s : State) : (s.advanceHost).hdrSize = s.hdrSize := rfl
@[simp] theorem State.advanceHost_extHsize (s : State) : (s.advanceHost).extHsize = s.extHsize := rfl
@[simp] theorem State.advanceHost_extCtrl (s : State) : (s.advanceHost).extCtrl = s.extCtrl := rfl
@[simp] theorem State.advanceHost_extPad (s : State) : (s.advanceHost).extPad = s.extPad := rfl
@[simp] theorem State.advanceHost_extCrc (s : State) : (s.advanceHost).extCrc = s.extCrc := rfl
@[simp] theorem State.advanceHost_frames (s : State) : (s.advanceHost).frames = s.frames := rfl
@[simp] theorem State.advanceHost_inMem (s : State) : (s.advanceHost).inMem = s.inMem := rfl
@[simp] theorem State.advanceHost_outMem (s : State) : (s.advanceHost).outMem = s.outMem := rfl
@[simp] theorem State.advanceHost_coutMem (s : State) : (s.advanceHost).coutMem = s.coutMem := rfl
@[simp] theorem State.advanceHost_hostProg (s : State) : (s.advanceHost).hostProg = s.hostProg := rfl
@[simp] theorem State.advanceHost_hostPos (s : State) : (s.advanceHost).hostPos = s.hostPos + 1 := rfl
@[simp] theorem State.advanceHost_hostSeen (s : State) : (s.advanceHost).hostSeen = s.hostSeen := rfl
@[simp] theorem State.advanceHost_resets (s : State) : (s.advanceHost).resets = s.resets := rfl
@[simp] theorem State.advanceHost_freeReads (s : State) : (s.advanceHost).freeReads = s.freeReads := rfl

/-! ### a host read -/

@[simp] theorem State.hostSees_cfg (s : State) (v : HostValue) : (s.hostSees v).cfg = s.cfg := rfl
@[simp] theorem State.hostSees_cmd (s : State) (v : HostValue) : (s.hostSees v).cmd = s.cmd := rfl
@[simp] theorem State.hostSees_status (s : State) (v : HostValue) : (s.hostSees v).status = s.status := rfl
@[simp] theorem State.hostSees_arg0 (s : State) (v : HostValue) : (s.hostSees v).arg0 = s.arg0 := rfl
@[simp] theorem State.hostSees_res0 (s : State) (v : HostValue) : (s.hostSees v).res0 = s.res0 := rfl
@[simp] theorem State.hostSees_res1 (s : State) (v : HostValue) : (s.hostSees v).res1 = s.res1 := rfl
@[simp] theorem State.hostSees_rptr (s : State) (v : HostValue) : (s.hostSees v).rptr = s.rptr := rfl
@[simp] theorem State.hostSees_inLen (s : State) (v : HostValue) : (s.hostSees v).inLen = s.inLen := rfl
@[simp] theorem State.hostSees_outLen (s : State) (v : HostValue) : (s.hostSees v).outLen = s.outLen := rfl
@[simp] theorem State.hostSees_coutLen (s : State) (v : HostValue) : (s.hostSees v).coutLen = s.coutLen := rfl
@[simp] theorem State.hostSees_hdr0 (s : State) (v : HostValue) : (s.hostSees v).hdr0 = s.hdr0 := rfl
@[simp] theorem State.hostSees_hdrSize (s : State) (v : HostValue) : (s.hostSees v).hdrSize = s.hdrSize := rfl
@[simp] theorem State.hostSees_extHsize (s : State) (v : HostValue) : (s.hostSees v).extHsize = s.extHsize := rfl
@[simp] theorem State.hostSees_extCtrl (s : State) (v : HostValue) : (s.hostSees v).extCtrl = s.extCtrl := rfl
@[simp] theorem State.hostSees_extPad (s : State) (v : HostValue) : (s.hostSees v).extPad = s.extPad := rfl
@[simp] theorem State.hostSees_extCrc (s : State) (v : HostValue) : (s.hostSees v).extCrc = s.extCrc := rfl
@[simp] theorem State.hostSees_frames (s : State) (v : HostValue) : (s.hostSees v).frames = s.frames := rfl
@[simp] theorem State.hostSees_inMem (s : State) (v : HostValue) : (s.hostSees v).inMem = s.inMem := rfl
@[simp] theorem State.hostSees_outMem (s : State) (v : HostValue) : (s.hostSees v).outMem = s.outMem := rfl
@[simp] theorem State.hostSees_coutMem (s : State) (v : HostValue) : (s.hostSees v).coutMem = s.coutMem := rfl
@[simp] theorem State.hostSees_hostProg (s : State) (v : HostValue) : (s.hostSees v).hostProg = s.hostProg := rfl
@[simp] theorem State.hostSees_hostPos (s : State) (v : HostValue) : (s.hostSees v).hostPos = s.hostPos := rfl
@[simp] theorem State.hostSees_hostSeen (s : State) (v : HostValue) : (s.hostSees v).hostSeen = some v := rfl
@[simp] theorem State.hostSees_resets (s : State) (v : HostValue) : (s.hostSees v).resets = s.resets := rfl
@[simp] theorem State.hostSees_freeReads (s : State) (v : HostValue) : (s.hostSees v).freeReads = s.freeReads := rfl

/-! ### a command issued -/

@[simp] theorem State.issued_cfg (s : State) (w : Word) : (s.issued w).cfg = s.cfg := rfl
@[simp] theorem State.issued_cmd (s : State) (w : Word) : (s.issued w).cmd = w := rfl
@[simp] theorem State.issued_status (s : State) (w : Word) : (s.issued w).status = s.status := rfl
@[simp] theorem State.issued_arg0 (s : State) (w : Word) : (s.issued w).arg0 = s.arg0 := rfl
@[simp] theorem State.issued_res0 (s : State) (w : Word) : (s.issued w).res0 = s.res0 := rfl
@[simp] theorem State.issued_res1 (s : State) (w : Word) : (s.issued w).res1 = s.res1 := rfl
@[simp] theorem State.issued_rptr (s : State) (w : Word) : (s.issued w).rptr = s.rptr := rfl
@[simp] theorem State.issued_inLen (s : State) (w : Word) : (s.issued w).inLen = s.inLen := rfl
@[simp] theorem State.issued_outLen (s : State) (w : Word) : (s.issued w).outLen = s.outLen := rfl
@[simp] theorem State.issued_coutLen (s : State) (w : Word) : (s.issued w).coutLen = s.coutLen := rfl
@[simp] theorem State.issued_hdr0 (s : State) (w : Word) : (s.issued w).hdr0 = s.hdr0 := rfl
@[simp] theorem State.issued_hdrSize (s : State) (w : Word) : (s.issued w).hdrSize = s.hdrSize := rfl
@[simp] theorem State.issued_extHsize (s : State) (w : Word) : (s.issued w).extHsize = s.extHsize := rfl
@[simp] theorem State.issued_extCtrl (s : State) (w : Word) : (s.issued w).extCtrl = s.extCtrl := rfl
@[simp] theorem State.issued_extPad (s : State) (w : Word) : (s.issued w).extPad = s.extPad := rfl
@[simp] theorem State.issued_extCrc (s : State) (w : Word) : (s.issued w).extCrc = s.extCrc := rfl
@[simp] theorem State.issued_frames (s : State) (w : Word) : (s.issued w).frames = s.frames := rfl
@[simp] theorem State.issued_inMem (s : State) (w : Word) : (s.issued w).inMem = s.inMem := rfl
@[simp] theorem State.issued_outMem (s : State) (w : Word) : (s.issued w).outMem = s.outMem := rfl
@[simp] theorem State.issued_coutMem (s : State) (w : Word) : (s.issued w).coutMem = s.coutMem := rfl
@[simp] theorem State.issued_hostProg (s : State) (w : Word) : (s.issued w).hostProg = s.hostProg := rfl
@[simp] theorem State.issued_hostPos (s : State) (w : Word) : (s.issued w).hostPos = s.hostPos + 1 := rfl
@[simp] theorem State.issued_hostSeen (s : State) (w : Word) : (s.issued w).hostSeen = s.hostSeen := rfl
@[simp] theorem State.issued_resets (s : State) (w : Word) : (s.issued w).resets = s.resets := rfl
@[simp] theorem State.issued_freeReads (s : State) (w : Word) : (s.issued w).freeReads = s.freeReads := rfl

/-! ### STATUS (10_state.md R22) -/

@[simp] theorem Status.afterError_err (st : Status) (e : CmdError) : (st.afterError e).err = e.code := rfl
@[simp] theorem Status.afterError_paddet (st : Status) (e : CmdError) : (st.afterError e).paddet = st.paddet := rfl
@[simp] theorem Status.afterError_errs (st : Status) (e : CmdError) : (st.afterError e).errs = (st.errs || e.sticky) := rfl
@[simp] theorem Status.afterError_busy (st : Status) (e : CmdError) : (st.afterError e).busy = st.busy := rfl
@[simp] theorem Status.afterSuccess_err (st : Status) : (st.afterSuccess).err = 0 := rfl
@[simp] theorem Status.afterSuccess_paddet (st : Status) : (st.afterSuccess).paddet = st.paddet := rfl
@[simp] theorem Status.afterSuccess_errs (st : Status) : (st.afterSuccess).errs = st.errs := rfl
@[simp] theorem Status.afterSuccess_busy (st : Status) : (st.afterSuccess).busy = st.busy := rfl

end Sys2Proof.Machine
end

