-- ==== Sys2Proof/Laws/Ops.lean ====
section
/-!
SUPPORT. One lemma for each shared operation and each command's staged results, saying once everything it can do.
-/

namespace Sys2Proof.Machine

/-- A command ends in one of two ways (00_scope.md R12). -/
theorem State.complete_cases {s t : State} {r : Except CmdError State} (h : s.complete r = .next t) :
    (∃ u, r = .ok u ∧ t = u.commit) ∨ (∃ e, r = .error e ∧ t = s.raise e) := by
  cases r with
  | ok u => exact .inl ⟨u, rfl, by simpa [State.complete] using h.symm⟩
  | error e => exact .inr ⟨e, rfl, by simpa [State.complete] using h.symm⟩

@[simp] theorem State.complete_ok (s u : State) : s.complete (.ok u) = .next u.commit := rfl
@[simp] theorem State.complete_error (s : State) (e : CmdError) : s.complete (.error e) = .next (s.raise e) := rfl

/-- Every command ends in a next state. -/
theorem State.complete_next (s : State) (r : Except CmdError State) : ∃ t, s.complete r = .next t := by
  cases r <;> exact ⟨_, rfl⟩

/-- The staged results of each command; exec completes them. -/
def State.staged (s : State) : Instr → Except CmdError State
  | .ssdec => s.ssdecStaged
  | .ssenc => s.ssencStaged
  | .frd => s.frdStaged
  | .fwr k => s.withFrame k (encode (.fwr k)) s.fwrFrame
  | .trd => s.trdStaged
  | .twr => s.twrStaged
  | .cls k => s.withFrame k (encode (.cls k)) s.clsFrame
  | .tclr => s.tclrStaged

theorem exec_eq_complete (i : Instr) (s : State) : exec i s = s.complete (s.staged i) := by
  cases i <;> rfl

/-- Every error code is one of 1 to 6 (60_exceptions.md R260). -/
theorem CmdError.code_range (e : CmdError) : 1 ≤ e.code.toNat ∧ e.code.toNat ≤ 6 := by
  cases e <;> simp [CmdError.code]

theorem CmdError.code_ne_zero (e : CmdError) : e.code ≠ 0 := by
  cases e <;> simp [CmdError.code]

/-- How a command that ends in `t` got there, told apart by STATUS.ERR. -/
theorem exec_cases {i : Instr} {s t : State} (h : exec i s = .next t) :
    (∃ u, s.staged i = .ok u ∧ t = u.commit ∧ t.status.err = 0) ∨
      (∃ e, s.staged i = .error e ∧ t = s.raise e ∧ t.status.err ≠ 0) := by
  rw [exec_eq_complete] at h
  obtain ⟨u, hu, rfl⟩ | ⟨e, he, rfl⟩ := State.complete_cases h
  · exact .inl ⟨u, hu, rfl, by simp⟩
  · exact .inr ⟨e, he, rfl, by simpa using e.code_ne_zero⟩

/-- A successful command committed its staged results. -/
theorem exec_success {i : Instr} {s t : State} (h : exec i s = .next t) (he : t.status.err = 0) :
    ∃ u, s.staged i = .ok u ∧ t = u.commit := by
  obtain ⟨u, hu, rfl, -⟩ | ⟨e, -, -, hne⟩ := exec_cases h
  · exact ⟨u, hu, rfl⟩
  · exact absurd he hne

theorem exec_of_staged_ok {i : Instr} {s u : State} (h : s.staged i = .ok u) : exec i s = .next u.commit := by
  rw [exec_eq_complete, h, State.complete_ok]

theorem exec_of_staged_error {i : Instr} {s : State} {e : CmdError} (h : s.staged i = .error e) :
    exec i s = .next (s.raise e) := by
  rw [exec_eq_complete, h, State.complete_error]

/-! ### The operand of FWR and CLS -/

theorem State.withFrame_of_some {s : State} {k : Nat} {f : Frame} (h : s.frames[k]? = some f) (w : Word)
    (go : Frame → Except CmdError State) : s.withFrame k w go = go f := by
  simp [State.withFrame, h]

theorem State.withFrame_of_none {s : State} {k : Nat} (h : s.frames.length ≤ k) (w : Word)
    (go : Frame → Except CmdError State) : s.withFrame k w go = .error (.illegalCommand w 2) := by
  simp [State.withFrame, List.getElem?_eq_none h]

theorem State.withFrame_ok {s u : State} {k : Nat} {w : Word} {go : Frame → Except CmdError State}
    (h : s.withFrame k w go = .ok u) : ∃ f, s.frames[k]? = some f ∧ go f = .ok u := by
  unfold State.withFrame at h
  split at h
  · exact ⟨_, ‹_›, h⟩
  · cases h

/-! ### Appending to OUT -/

theorem State.tryAppendOut_of_room {s : State} {bs : List Byte} (h : s.outLen.toNat + bs.length ≤ s.cfg.outCap) :
    s.tryAppendOut bs = .ok (s.appendOut bs) := if_neg (by omega)

theorem State.tryAppendOut_of_full {s : State} {bs : List Byte} (h : s.cfg.outCap < s.outLen.toNat + bs.length) :
    s.tryAppendOut bs = .error (.capacityExceeded 3 (s.outLen.toNat + bs.length)) := if_pos h

theorem State.tryAppendOut_ok {s t : State} {bs : List Byte} (h : s.tryAppendOut bs = .ok t) :
    s.outLen.toNat + bs.length ≤ s.cfg.outCap ∧ t = s.appendOut bs := by
  unfold State.tryAppendOut at h
  split at h
  · cases h
  · exact ⟨by omega, by simpa using h.symm⟩

/-! ### Reading IN -/

@[simp] theorem State.length_memRead (s : State) (a n : Nat) : (s.memRead a n).length = n := by
  induction n generalizing a with
  | zero => rfl
  | succ n ih => simp [State.memRead, ih]

theorem State.memRead_getElem? (s : State) (a n j : Nat) :
    (s.memRead a n)[j]? = if j < n then some (s.inByte (a + j)) else none := by
  induction n generalizing a j with
  | zero => simp [State.memRead]
  | succ n ih =>
    cases j with
    | zero => simp [State.memRead]
    | succ j =>
      simp only [State.memRead, List.getElem?_cons_succ, ih, Nat.add_lt_add_iff_right]
      rw [show a + 1 + j = a + (j + 1) by omega]

/-- A read of n bytes is the list of the n cells. -/
theorem State.memRead_eq_map (s : State) (a n : Nat) :
    s.memRead a n = (List.range n).map fun j => s.inByte (a + j) := by
  apply List.ext_getElem?
  intro j
  rw [State.memRead_getElem?, List.getElem?_map]
  split <;> simp [*]

theorem State.memRead_add (s : State) (a m n : Nat) : s.memRead a (m + n) = s.memRead a m ++ s.memRead (a + m) n := by
  induction m generalizing a with
  | zero => simp [State.memRead]
  | succ m ih =>
    rw [show m + 1 + n = m + n + 1 by omega]
    simp only [State.memRead, ih, List.cons_append]
    rw [show a + 1 + m = a + (m + 1) by omega]

theorem State.memRead4_toList (s : State) (a : Nat) : (s.memRead4 a).toList = s.memRead a 4 := rfl
theorem State.memRead2_toList (s : State) (a : Nat) : (s.memRead2 a).toList = s.memRead a 2 := rfl

/-- The record read at `p`, written out again, is the bytes of IN it was read from (41_frame_codec.md R147). -/
theorem State.frameAt_bytes (s : State) (p : Nat) : (s.frameAt p).bytes = s.memRead p (10 + s.frameSizeAt p) := by
  have hsz : (be32bytes (s.frameAt p).data.length) = s.memRead4 (p + 4) := by
    simp [State.frameAt, State.frameSizeAt, be32bytes_be32]
  rw [Frame.bytes, hsz]
  simp only [State.frameAt, State.memRead4_toList, State.memRead2_toList]
  rw [show 10 + s.frameSizeAt p = 4 + (4 + (2 + s.frameSizeAt p)) by omega]
  simp only [State.memRead_add, List.append_assoc]

/-! ### The synchsafe commands -/

theorem State.ssencStaged_of_lt {s : State} (h : s.arg0.toNat < 2 ^ 28) :
    s.ssencStaged = .ok (s.setResults (be32 (ssEncode s.arg0.toNat)) 0) := if_neg (by simp [State.arg0Value]; omega)

theorem State.ssencStaged_of_ge {s : State} (h : 2 ^ 28 ≤ s.arg0.toNat) :
    s.ssencStaged = .error (.encodingRange s.arg0.toNat) := if_pos h

theorem State.ssdecStaged_ok {s u : State} (h : s.ssdecStaged = .ok u) :
    u = s.setResults (ssDecode s.arg0Bytes) (topBits s.arg0Bytes) := by
  simpa only [State.ssdecStaged, Except.ok.injEq] using h.symm

theorem State.ssencStaged_ok {s u : State} (h : s.ssencStaged = .ok u) :
    s.arg0.toNat < 2 ^ 28 ∧ u = s.setResults (be32 (ssEncode s.arg0.toNat)) 0 := by
  by_cases hx : s.arg0.toNat < 2 ^ 28
  · rw [State.ssencStaged_of_lt hx, Except.ok.injEq] at h
    exact ⟨hx, h.symm⟩
  · rw [State.ssencStaged_of_ge (by omega)] at h
    simp only [reduceCtorEq] at h

/-! ### FRD and FWR -/

/-- What a successful FRD staged, and the checks it passed (41_frame_codec.md R141). -/
theorem State.frdStaged_ok {s u : State} (h : s.frdStaged = .ok u) :
    s.rptr.toNat + 10 + s.frameSizeAt s.rptr.toNat ≤ s.inLen.toNat ∧ s.frames.length < s.cfg.maxFrames ∧
      s.frameSizeAt s.rptr.toNat ≤ s.cfg.maxPayload ∧
      u = ({ s with
        frames := s.frames ++ [s.frameAt s.rptr.toNat]
        rptr := BitVec.ofNat 32 (s.rptr.toNat + 10 + s.frameSizeAt s.rptr.toNat) } : State).setResults
          s.frames.length (s.frameSizeAt s.rptr.toNat) := by
  unfold State.frdStaged at h
  simp only at h
  repeat (split at h; · cases h)
  exact ⟨by omega, by omega, by omega, by simpa using h.symm⟩

/-- What a successful FWR staged, and the check it passed (41_frame_codec.md R145). -/
theorem State.fwrFrame_ok {s u : State} {f : Frame} (h : s.fwrFrame f = .ok u) :
    s.outLen.toNat + f.extent ≤ s.cfg.outCap ∧
      u = (s.appendOut f.bytes).setResults f.extent (s.appendOut f.bytes).outLen.toNat := by
  unfold State.fwrFrame at h
  split at h
  · cases h
  · obtain ⟨hroom, rfl⟩ := State.tryAppendOut_ok ‹_›
    exact ⟨by simpa using hroom, by simpa using h.symm⟩

/-! ### TWR and CLS -/

/-- What a successful TWR staged, and the checks it passed (42_tag_codec.md R186). -/
theorem State.twrStaged_ok {s u : State} (h : s.twrStaged = .ok u) :
    s.hdrSize.toNat < 2 ^ 28 ∧ s.outLen.toNat + s.tagBytes.length ≤ s.cfg.outCap ∧
      u = (s.appendOut s.tagBytes).setResults s.tagBytes.length s.frames.length := by
  unfold State.twrStaged at h
  split at h
  · cases h
  · split at h
    · cases h
    · obtain ⟨hroom, rfl⟩ := State.tryAppendOut_ok ‹_›
      exact ⟨by omega, hroom, by simpa using h.symm⟩

/-- What a successful CLS staged, and the check it passed (43_classifier.md R222). -/
theorem State.clsFrame_ok {s u : State} {f : Frame} (h : s.clsFrame f = .ok u) :
    (f.render s.cfg.apicPlaceholder).length ≤ s.cfg.coutCap ∧
      u = (s.replaceCout (f.render s.cfg.apicPlaceholder)).setResults (f.render s.cfg.apicPlaceholder).length f.clsRule := by
  unfold State.clsFrame at h
  simp only at h
  split at h
  · cases h
  · exact ⟨by omega, by simpa using h.symm⟩

/-! ### TRD and TCLR -/

/-- What a successful TRD staged: the three phases succeeded (42_tag_codec.md R171, R178). -/
theorem State.trdStaged_ok {s u : State} (h : s.trdStaged = .ok u) :
    ∃ hd x b, s.readTagHeader s.rptr.toNat = .ok hd ∧
      s.readExtHeader hd.hdr0.hflags hd.size (s.rptr.toNat + 10) = .ok x ∧
      s.readFrames (hd.size / 10 + 1) (s.rptr.toNat + 10 + x.len) (hd.size - x.len) 0 = .ok b ∧ u = s.storeTag hd x b := by
  unfold State.trdStaged at h
  split at h
  · simp only [reduceCtorEq] at h
  · split at h
    · simp only [reduceCtorEq] at h
    · split at h
      · simp only [reduceCtorEq] at h
      · rw [Except.ok.injEq] at h
        exact ⟨_, _, _, ‹_›, ‹_›, ‹_›, h.symm⟩

/-- The store and its registers cleared: TCLR's staged results (42_tag_codec.md R195). -/
def State.cleared (s : State) : State :=
  ({ s with
    frames := []
    hdr0 := { verMajor := 0, verMinor := 0, hflags := 0 }
    hdrSize := 0
    extHsize := 0
    extCtrl := { flags := 0, present := false }
    extPad := 0
    extCrc := 0
    status := { s.status with paddet := false } } : State).setResults 0 0

theorem State.tclrStaged_ok {s u : State} (h : s.tclrStaged = .ok u) : u = s.cleared := by
  simpa only [State.tclrStaged, State.cleared, Except.ok.injEq] using h.symm

end Sys2Proof.Machine
end

