-- ==== Sys2Proof/Laws/Spec.lean ====
section
/-!
SUPPORT. The spec's terms of Safety/Spec.lean against the machine's: each is the same value, computed in another way.
-/

namespace Sys2Proof.Machine

open Sys2Proof.Spec

theorem raised_eq_raise (s : State) (e : CmdError) : raised s e.code e.info0 e.info1 = s.raise e := by
  have hsat : ∀ n, BitVec.ofNat 32 (min n 0xFFFFFFFF) = saturate n := by
    intro n
    apply BitVec.eq_of_toNat_eq
    rw [saturate_toNat, BitVec.toNat_ofNat]
    omega
  simp only [raised, hsat]
  rfl

theorem succeeded_eq_commit (s : State) (r0 r1 : Nat) :
    succeeded s (BitVec.ofNat 32 r0) (BitVec.ofNat 32 r1) = (s.setResults r0 r1).commit := rfl

theorem low7_eq_and (b : Byte) : (b &&& 0x7F).toNat = low7 b := by
  rw [BitVec.toNat_and, low7]
  exact Nat.and_two_pow_sub_one_eq_mod _ 7

theorem getLsbD_seven (b : Byte) : b.getLsbD 7 = decide (128 ≤ b.toNat) := by
  have := b.isLt
  rw [BitVec.getLsbD, Nat.testBit_eq_decide_div_mod_eq, decide_eq_decide]
  omega

theorem topBit_eq (b : Byte) : topBit b = (b.getLsbD 7).toNat := by
  have := b.isLt
  rw [getLsbD_seven, topBit]
  by_cases h : 128 ≤ b.toNat
  · rw [decide_eq_true h, Bool.toNat_true]
    omega
  · rw [decide_eq_false h, Bool.toNat_false]
    omega

theorem synchsafe_eq_ssDecode (b0 b1 b2 b3 : Byte) : synchsafe b0 b1 b2 b3 = ssDecode ⟨b0, b1, b2, b3⟩ := by
  simp only [synchsafe, low7_eq_and, ssDecode, Nat.shiftLeft_eq, Nat.mul_comm]

theorem byteOf_toNat (w : Word) (i : Nat) : (byteOf w i).toNat = w.toNat / 2 ^ (8 * i) % 256 := by
  simp [byteOf, BitVec.extractLsb'_toNat, Nat.shiftRight_eq_div_pow]

theorem be32bytes_eq_byteOf (v : Nat) (h : v < 2 ^ 32) :
    be32bytes v = ⟨byteOf (BitVec.ofNat 32 v) 3, byteOf (BitVec.ofNat 32 v) 2, byteOf (BitVec.ofNat 32 v) 1,
      byteOf (BitVec.ofNat 32 v) 0⟩ := by
  apply bytes4_ext <;> simp [byteOf_toNat] <;> omega

theorem unpack4_eq (w : Word) : unpack4 w = ⟨byteOf w 3, byteOf w 2, byteOf w 1, byteOf w 0⟩ := by
  have := be32bytes_eq_byteOf w.toNat w.isLt
  simpa [unpack4] using this

theorem be32bytes_toList_eq_field32 (w : Word) : (be32bytes w.toNat).toList = field32 w := by
  have := unpack4_eq w
  rw [unpack4] at this
  rw [this]
  rfl

/-- The size field as written: the low 32 bits of the payload length. -/
theorem be32bytes_length_eq (n : Nat) : (be32bytes n).toList = field32 (BitVec.ofNat 32 n) := by
  have : be32bytes n = be32bytes (BitVec.ofNat 32 n).toNat := by
    apply bytes4_ext <;> simp <;> omega
  rw [this, be32bytes_toList_eq_field32]

theorem frameBytes_eq (f : Frame) : frameBytes f = f.bytes := by
  rw [frameBytes, Frame.bytes, be32bytes_length_eq]
  rfl

theorem inBytes_eq_memRead (s : State) (a n : Nat) : inBytes s a n = s.memRead a n := (s.memRead_eq_map a n).symm

theorem bigEndian_four (a b c d : Byte) : bigEndian [a, b, c, d] = be32 ⟨a, b, c, d⟩ := by
  simp only [bigEndian, List.foldl_cons, List.foldl_nil, be32]
  omega

theorem bigEndian_two (a b : Byte) : bigEndian [a, b] = be16 ⟨a, b⟩ := by
  simp only [bigEndian, List.foldl_cons, List.foldl_nil, be16]
  omega

theorem bigEndian_memRead4 (s : State) (a : Nat) : bigEndian (inBytes s a 4) = be32 (s.memRead4 a) := by
  rw [inBytes_eq_memRead, ← State.memRead4_toList]
  exact bigEndian_four _ _ _ _

theorem bigEndian_memRead2 (s : State) (a : Nat) : bigEndian (inBytes s a 2) = be16 (s.memRead2 a) := by
  rw [inBytes_eq_memRead, ← State.memRead2_toList]
  exact bigEndian_two _ _

theorem sizeIn_eq (s : State) (p : Nat) : sizeIn s p = s.frameSizeAt p := bigEndian_memRead4 s (p + 4)

theorem frameIn_eq (s : State) (p : Nat) : frameIn s p = s.frameAt p := by
  simp only [frameIn, State.frameAt, inBytes_eq_memRead, sizeIn_eq, State.memRead4, State.memRead2]

theorem frameSizeAt_lt (s : State) (p : Nat) : s.frameSizeAt p < 2 ^ 32 := be32_lt _

theorem hasTagId_iff (s : State) (p : Nat) : HasTagId s p ↔ (p + 3 ≤ s.inLen.toNat ∧ s.memRead p 3 = id3Bytes) := by
  rw [HasTagId, inBytes_eq_memRead]
  rfl

theorem tagSize_eq (s : State) (p : Nat) : tagSize s p = ssDecode (s.memRead4 (p + 6)) := by
  rw [tagSize, synchsafe_eq_ssDecode]
  rfl

theorem tagSize_lt (s : State) (p : Nat) : tagSize s p < 2 ^ 28 := by
  rw [tagSize_eq]
  exact ssDecode_lt _

theorem extFlagSet_iff (s : State) (p : Nat) : s.extFlagSet (s.inByte (p + 5)) = true ↔ ExtFlag s p := by
  simp [State.extFlagSet, ExtFlag]

/-- The CRC flag of the extended header at p + 10 is bit 7 of the first of its flags bytes. -/
theorem crcFlag_iff (s : State) (p : Nat) :
    crcFlag (BitVec.ofNat 16 (be16 (s.memRead2 (p + 14)))) = true ↔ ExtCrcBit s p := by
  have h0 := (s.inByte (p + 14)).isLt
  have h1 := (s.inByte (p + 14 + 1)).isLt
  rw [ExtCrcBit, getLsbD_seven]
  simp only [crcFlag, be16, State.memRead2, BitVec.toNat_ofNat, decide_eq_true_eq]
  omega

theorem crcFlag_eq_getLsbD (fl : BitVec 16) : crcFlag fl = fl.getLsbD 15 := by
  have := fl.isLt
  rw [crcFlag, BitVec.getLsbD, Nat.testBit_eq_decide_div_mod_eq, decide_eq_decide]
  omega

theorem extBytes_eq (s : State) : Spec.extBytes s = s.extBytes := by
  have h16 : (be16bytes s.extCtrl.flags.toNat).toList =
      [s.extCtrl.flags.extractLsb' 8 8, s.extCtrl.flags.extractLsb' 0 8] := by
    have h := s.extCtrl.flags.isLt
    simp only [be16bytes, Bytes2.toList, List.cons.injEq, and_true]
    constructor
    all_goals
      apply BitVec.eq_of_toNat_eq
      simp [BitVec.extractLsb'_toNat, Nat.shiftRight_eq_div_pow]
  simp only [Spec.extBytes, State.extBytes, be32bytes_toList_eq_field32, h16, crcFlag_eq_getLsbD]
  cases s.extCtrl.present <;> cases s.extCtrl.flags.getLsbD 15 <;> simp

theorem tagBytes_eq (s : State) : Spec.tagBytes s = s.tagBytes := by
  have hss : (synchsafeGroups s.hdrSize.toNat).map (BitVec.ofNat 8) = (ssEncode s.hdrSize.toNat).toList := by
    have h : ∀ n : Nat, n &&& 0x7F = n % 2 ^ 7 := fun n => Nat.and_two_pow_sub_one_eq_mod n 7
    simp [synchsafeGroups, ssEncode, Bytes4.toList, h, Nat.shiftRight_eq_div_pow]
  have hfs : (s.frames.map frameBytes).flatten = framesBytes s.frames := by
    rw [framesBytes, List.flatMap]
    congr 1
    exact List.map_congr_left fun f _ => frameBytes_eq f
  rw [Spec.tagBytes, State.tagBytes, State.headerBytes, extBytes_eq, hss, hfs]
  simp [id3Bytes]

theorem extent_cons (f : Frame) (fs : List Frame) : extent (f :: fs) = 10 + f.data.length + extent fs := by
  simp [extent]

@[simp] theorem extent_nil : extent [] = 0 := rfl

theorem length_framesBytes (fs : List Frame) : (framesBytes fs).length = extent fs := by
  induction fs with
  | nil => rfl
  | cons f fs ih =>
    rw [framesBytes] at ih
    simp [framesBytes, extent_cons, Frame.extent, ih]

/-- A run appended to OUT stands there, and nothing else of OUT changes (20_memory.md R62). -/
theorem outWritten_appendOut (s : State) (bs : List Byte) : OutWritten s (s.appendOut bs) s.outLen.toNat bs := by
  refine ⟨fun j h => ?_, fun b h => ?_⟩
  · exact Memory.cell?_setRun_inside _ _ _ _ _ (List.getElem?_eq_getElem h)
  · exact Memory.cell?_setRun_outside _ _ _ _ h

/-- The units CLS writes stand in COUT, and nothing else of COUT changes (20_memory.md R63). -/
theorem coutWritten_replaceCout (s : State) (us : List CodeUnit) : CoutWritten s (s.replaceCout us) us := by
  refine ⟨fun j h => ?_, fun b h => ?_⟩
  · have := Memory.cell?_setRun_inside s.coutMem 0 us j _ (List.getElem?_eq_getElem h)
    rwa [Nat.zero_add] at this
  · exact Memory.cell?_setRun_outside _ _ _ _ (.inr (by omega))

/-! ### The state TRD leaves, field by field -/

section tagRead

variable (s : State) (p : Nat) (fs : List Frame) (pad : Nat)

@[simp] theorem tagRead_status : (tagRead s p fs pad).status = { s.status with err := 0, paddet := decide (0 < pad) } := rfl
@[simp] theorem tagRead_res0 : (tagRead s p fs pad).res0 = BitVec.ofNat 32 (10 + tagSize s p) := rfl
@[simp] theorem tagRead_res1 : (tagRead s p fs pad).res1 = BitVec.ofNat 32 (tagSize s p - pad) := rfl
@[simp] theorem tagRead_rptr : (tagRead s p fs pad).rptr = BitVec.ofNat 32 (framesEnd s p fs) := rfl
@[simp] theorem tagRead_hdr0 :
    (tagRead s p fs pad).hdr0 = { verMajor := s.inByte (p + 3), verMinor := s.inByte (p + 4), hflags := s.inByte (p + 5) } := rfl
@[simp] theorem tagRead_hdrSize : (tagRead s p fs pad).hdrSize = BitVec.ofNat 32 (tagSize s p) := rfl
@[simp] theorem tagRead_extHsize :
    (tagRead s p fs pad).extHsize = if ExtFlag s p then BitVec.ofNat 32 (bigEndian (inBytes s (p + 10) 4)) else 0 := rfl
@[simp] theorem tagRead_extCtrl :
    (tagRead s p fs pad).extCtrl = 
    { flags := if ExtFlag s p then BitVec.ofNat 16 (bigEndian (inBytes s (p + 14) 2)) else 0
      present := decide (ExtFlag s p) } := rfl
@[simp] theorem tagRead_extPad :
    (tagRead s p fs pad).extPad = if ExtFlag s p then BitVec.ofNat 32 (bigEndian (inBytes s (p + 16) 4)) else 0 := rfl
@[simp] theorem tagRead_extCrc :
    (tagRead s p fs pad).extCrc = if ExtFlag s p ∧ ExtCrcBit s p then BitVec.ofNat 32 (bigEndian (inBytes s (p + 20) 4)) else 0 := rfl
@[simp] theorem tagRead_frames : (tagRead s p fs pad).frames = fs := rfl
@[simp] theorem tagRead_cfg : (tagRead s p fs pad).cfg = s.cfg := rfl
@[simp] theorem tagRead_cmd : (tagRead s p fs pad).cmd = s.cmd := rfl
@[simp] theorem tagRead_arg0 : (tagRead s p fs pad).arg0 = s.arg0 := rfl
@[simp] theorem tagRead_inLen : (tagRead s p fs pad).inLen = s.inLen := rfl
@[simp] theorem tagRead_outLen : (tagRead s p fs pad).outLen = s.outLen := rfl
@[simp] theorem tagRead_coutLen : (tagRead s p fs pad).coutLen = s.coutLen := rfl
@[simp] theorem tagRead_inMem : (tagRead s p fs pad).inMem = s.inMem := rfl
@[simp] theorem tagRead_outMem : (tagRead s p fs pad).outMem = s.outMem := rfl
@[simp] theorem tagRead_coutMem : (tagRead s p fs pad).coutMem = s.coutMem := rfl
@[simp] theorem tagRead_hostProg : (tagRead s p fs pad).hostProg = s.hostProg := rfl
@[simp] theorem tagRead_hostPos : (tagRead s p fs pad).hostPos = s.hostPos := rfl
@[simp] theorem tagRead_hostSeen : (tagRead s p fs pad).hostSeen = s.hostSeen := rfl
@[simp] theorem tagRead_resets : (tagRead s p fs pad).resets = s.resets := rfl
@[simp] theorem tagRead_freeReads : (tagRead s p fs pad).freeReads = s.freeReads := rfl

end tagRead

end Sys2Proof.Machine
end

