-- ==== Sys2Proof/Laws/Classifier.lean ====
section
/-!
SUPPORT. The classifier's list functions against the index loops of the pseudocode (43_classifier.md R222).
-/

namespace Sys2Proof.Machine

open Sys2Proof.Spec

theorem append_eq_le16 (lo hi : Byte) : (hi ++ lo : BitVec 16) = le16 lo hi := by
  apply BitVec.eq_of_toNat_eq
  have := lo.isLt
  rw [le16_toNat, BitVec.toNat_append, Nat.shiftLeft_eq]
  rw [show hi.toNat * 2 ^ 8 = 2 ^ 8 * hi.toNat by omega, ← Nat.two_pow_add_eq_or_of_lt (by omega)]
  omega

theorem setWidth_eq_latin1 (b : Byte) : b.setWidth 16 = latin1 b := by
  apply BitVec.eq_of_toNat_eq
  rw [latin1_toNat, BitVec.toNat_setWidth]
  have := b.isLt
  omega

theorem drop_of_length_le {p : List Byte} {j : Nat} (h : p.length ≤ j) : p.drop j = [] := List.drop_eq_nil_of_le h

/-- With two bytes left from j on, they head the rest of the payload. -/
theorem drop_two {p : List Byte} {j : Nat} (h : j + 1 < p.length) :
    p.drop j = p.getD j 0 :: p.getD (j + 1) 0 :: p.drop (j + 2) := by
  rw [List.drop_eq_getElem_cons (by omega), List.drop_eq_getElem_cons h]
  simp [List.getD_eq_getElem?_getD, h, Nat.lt_of_succ_lt h]

/-- With one byte left from j on, it is the rest of the payload. -/
theorem drop_one {p : List Byte} {j : Nat} (h : j + 1 = p.length) : p.drop j = [p.getD j 0] := by
  rw [List.drop_eq_getElem_cons (by omega), drop_of_length_le (by omega)]
  simp [List.getD_eq_getElem?_getD, List.getElem?_eq_getElem (show j < p.length by omega)]

theorem unitAt_eq (p : List Byte) (j : Nat) : unitAt p j = le16 (p.getD j 0) (p.getD (j + 1) 0) := append_eq_le16 _ _

/-- Rule 2's loop emits the pairs of the payload from its index on (43_classifier.md R225). -/
theorem rule2Loop_eq (p : List Byte) (fuel j : Nat) (h : p.length ≤ j + 2 * fuel) :
    rule2Loop p fuel j = pairUnits (p.drop j) := by
  induction fuel generalizing j with
  | zero =>
    rw [drop_of_length_le (by omega)]
    rfl
  | succ fuel ih =>
    by_cases h2 : j + 1 < p.length
    · rw [rule2Loop, if_pos h2, drop_two h2, pairUnits, ih _ (by omega), unitAt_eq]
    · rw [rule2Loop, if_neg h2]
      by_cases h1 : j + 1 = p.length
      · rw [drop_one h1]
        rfl
      · rw [drop_of_length_le (by omega)]
        rfl

/-- Rule 3's run loop emits the units of the run, and the scan goes on where it stops (43_classifier.md R227). -/
theorem runLoop_eq (p : List Byte) (fuel j : Nat) (h : p.length ≤ j + 2 * fuel) :
    scanUnits true (p.drop j) = (runLoop p fuel j).1 ++ scanUnits false (p.drop (runLoop p fuel j).2) ∧
      min j p.length ≤ (runLoop p fuel j).2 := by
  induction fuel generalizing j with
  | zero =>
    simp only [runLoop]
    rw [drop_of_length_le (by omega)]
    exact ⟨rfl, by omega⟩
  | succ fuel ih =>
    by_cases h2 : p.length ≤ j + 1
    · simp only [runLoop, if_pos h2]
      rw [drop_of_length_le (Nat.le_refl p.length)]
      refine ⟨?_, by omega⟩
      by_cases h1 : j + 1 = p.length
      · rw [drop_one h1]
        rfl
      · rw [drop_of_length_le (by omega)]
        rfl
    · have h2' : j + 1 < p.length := by omega
      by_cases h0 : unitAt p j = 0
      · simp only [runLoop, if_neg h2, if_pos h0]
        rw [drop_two h2', scanUnits, if_pos (by rw [← unitAt_eq, h0])]
        exact ⟨rfl, by omega⟩
      · simp only [runLoop, if_neg h2, if_neg h0]
        rw [drop_two h2', scanUnits, if_neg (by rw [← unitAt_eq]; exact h0), ← unitAt_eq]
        obtain ⟨heq, hle⟩ := ih (j + 2) (by omega)
        exact ⟨by rw [heq]; rfl, by omega⟩

/-- Rule 3's outer loop emits the scan of the payload from its index on (43_classifier.md R226 to R228). -/
theorem rule3Loop_eq (p : List Byte) (fuel i : Nat) (h : p.length ≤ i + fuel) :
    rule3Loop p fuel i = scanUnits false (p.drop i) := by
  induction fuel generalizing i with
  | zero =>
    rw [drop_of_length_le (by omega)]
    rfl
  | succ fuel ih =>
    by_cases hi : i < p.length
    · by_cases h2 : i + 1 < p.length
      · by_cases hb : p.getD i 0 = 0xFF ∧ p.getD (i + 1) 0 = 0xFE
        · obtain ⟨heq, hle⟩ := runLoop_eq p p.length (i + 2) (by omega)
          rw [rule3Loop, if_pos hi, if_pos ⟨h2, hb.1, hb.2⟩, drop_two h2, scanUnits, if_pos hb, heq, ih _ (by omega)]
        · rw [rule3Loop, if_pos hi, if_neg (fun hh => hb hh.2), ih _ (by omega), setWidth_eq_latin1, drop_two h2, scanUnits,
            if_neg hb]
          congr 2
          rw [List.drop_eq_getElem_cons h2]
          simp [List.getD_eq_getElem?_getD, List.getElem?_eq_getElem h2]
      · have h1 : i + 1 = p.length := by omega
        rw [rule3Loop, if_pos hi, if_neg (fun hh => h2 hh.1), ih _ (by omega), setWidth_eq_latin1, drop_one h1,
          drop_of_length_le (by omega : p.length ≤ i + 1)]
        rfl
    · rw [rule3Loop, if_neg hi, drop_of_length_le (by omega)]
      rfl

theorem legacyMarked_iff (p : List Byte) :
    legacyMarked p = true ↔ 3 ≤ p.length ∧ p.getD 0 0 = 0x01 ∧ p.getD 1 0 = 0xFF ∧ p.getD 2 0 = 0xFE := by
  match p with
  | [] => simp [legacyMarked]
  | [_] => simp [legacyMarked]
  | [_, _] => simp [legacyMarked]
  | _ :: _ :: _ :: _ => simp [legacyMarked]

theorem skipMarker_eq (p : List Byte) : skipMarker p = p.drop (if 1 ≤ p.length ∧ p.getD 0 0 = 0x00 then 1 else 0) := by
  cases p with
  | nil => rfl
  | cons b p =>
    by_cases h : b = 0#8 <;> simp [skipMarker, h]

/-- What the machine renders, and the rule it reports, are the pseudocode's (43_classifier.md R222). -/
theorem classify_eq (ph : List CodeUnit) (f : Frame) : classify ph f = (f.render ph, f.clsRule) := by
  have hid : f.id = ⟨0x41, 0x50, 0x49, 0x43⟩ ↔ f.id = apicId := Iff.rfl
  unfold classify Frame.render Frame.clsRule
  by_cases h1 : f.id = apicId
  · rw [if_pos (hid.2 h1)]
    simp [h1]
  · rw [if_neg (fun h => h1 (hid.1 h))]
    simp only [if_neg h1]
    by_cases h2 : legacyMarked f.data = true
    · rw [if_pos ((legacyMarked_iff _).1 h2), rule2Loop_eq _ _ _ (by omega)]
      simp [h2]
    · rw [if_neg (fun h => h2 ((legacyMarked_iff _).2 h))]
      by_cases h3 : f.term = 0x00
      · rw [if_pos h3, rule3Loop_eq _ _ _ (by omega), ← skipMarker_eq]
        simp [h2, h3]
      · rw [if_neg h3]
        have : (BitVec.setWidth 16 : Byte → CodeUnit) = latin1 := funext setWidth_eq_latin1
        have h3' : ¬ f.term = 0#8 := h3
        simp [h2, h3', this]

/-- The rule CLS reports is 1 to 4 (43_classifier.md R223). -/
theorem Frame.clsRule_range (f : Frame) : 1 ≤ f.clsRule ∧ f.clsRule ≤ 4 := by
  unfold Frame.clsRule
  split
  · omega
  · split
    · omega
    · split <;> omega

/-- Rule 4 needs a non-zero term byte (43_classifier.md R223). -/
theorem Frame.clsRule_le_three {f : Frame} (h : f.term = 0) : f.clsRule ≤ 3 := by
  unfold Frame.clsRule
  split
  · omega
  · split
    · omega
    · simp

end Sys2Proof.Machine
end

