-- ==== Sys2Proof/Laws/TagLoop.lean ====
section
/-!
SUPPORT. The three phases of TRD (42_tag_codec.md R171): what each reads when it succeeds, and when it does.
-/

namespace Sys2Proof.Machine

open Sys2Proof.Spec

/-! ### The header -/

/-- What a header phase that succeeds read (42_tag_codec.md R173, R174). -/
theorem State.readTagHeader_ok {s : State} {p : Nat} {h : TagHeader} (hr : s.readTagHeader p = .ok h) :
    HasHeader s p ∧ h.size = tagSize s p ∧ h.hdr0.hflags = s.inByte (p + 5) ∧
      h.hdr0 = { verMajor := s.inByte (p + 3), verMinor := s.inByte (p + 4), hflags := s.inByte (p + 5) } := by
  unfold State.readTagHeader at hr
  split at hr
  · cases hr
  · split at hr
    · cases hr
    · rename_i hid hlen
      cases hr
      exact ⟨⟨(hasTagId_iff s p).2 (Classical.not_not.1 hid), by omega⟩, (tagSize_eq s p).symm, rfl, rfl⟩

/-- A whole header is read. -/
theorem State.readTagHeader_of_header {s : State} {p : Nat} (h : HasHeader s p) :
    s.readTagHeader p = .ok {
      hdr0 := { verMajor := s.inByte (p + 3), verMinor := s.inByte (p + 4), hflags := s.inByte (p + 5) }
      size := tagSize s p } := by
  rw [State.readTagHeader, if_neg (Classical.not_not.2 ((hasTagId_iff s p).1 h.1)), if_neg (by have := h.2; omega), tagSize_eq]

/-! ### The extended header -/

/-- The extended header of a tag at p, as the layout says. -/
def extRead (s : State) (p : Nat) : ExtHeader where
  ctrl :=
    { flags := if ExtFlag s p then BitVec.ofNat 16 (be16 (s.memRead2 (p + 14))) else 0
      present := decide (ExtFlag s p) }
  hsize := if ExtFlag s p then be32 (s.memRead4 (p + 10)) else 0
  pad := if ExtFlag s p then be32 (s.memRead4 (p + 16)) else 0
  crc := if ExtFlag s p ∧ ExtCrcBit s p then be32 (s.memRead4 (p + 20)) else 0
  len := extLen s p

theorem extLen_of_flag {s : State} {p : Nat} (h : ExtFlag s p) : extLen s p = if ExtCrcBit s p then 14 else 10 := if_pos h

theorem extLen_of_no_flag {s : State} {p : Nat} (h : ¬ ExtFlag s p) : extLen s p = 0 := if_neg h

theorem extRead_of_no_flag {s : State} {p : Nat} (h : ¬ ExtFlag s p) : extRead s p = ExtHeader.absent := by
  simp only [extRead, if_neg h, extLen_of_no_flag h, decide_eq_false h, if_neg (fun hc : ExtFlag s p ∧ ExtCrcBit s p => h hc.1)]
  rfl

theorem extRead_of_no_crc {s : State} {p : Nat} (h : ExtFlag s p) (hc : ¬ ExtCrcBit s p) :
    extRead s p =
      { ctrl := { flags := BitVec.ofNat 16 (be16 (s.memRead2 (p + 14))), present := true }
        hsize := be32 (s.memRead4 (p + 10))
        pad := be32 (s.memRead4 (p + 16))
        crc := 0
        len := 10 } := by
  simp only [extRead, if_pos h, extLen_of_flag h, if_neg hc, decide_eq_true h,
    if_neg (fun hh : ExtFlag s p ∧ ExtCrcBit s p => hc hh.2)]

theorem extRead_of_crc {s : State} {p : Nat} (h : ExtFlag s p) (hc : ExtCrcBit s p) :
    extRead s p =
      { ctrl := { flags := BitVec.ofNat 16 (be16 (s.memRead2 (p + 14))), present := true }
        hsize := be32 (s.memRead4 (p + 10))
        pad := be32 (s.memRead4 (p + 16))
        crc := be32 (s.memRead4 (p + 20))
        len := 14 } := by
  simp only [extRead, if_pos h, extLen_of_flag h, if_pos hc, decide_eq_true h, if_pos (And.intro h hc)]

/-- What an extended-header phase that succeeds read (42_tag_codec.md R176). -/
theorem State.readExtHeader_ok {s : State} {p : Nat} {x : ExtHeader}
    (hr : s.readExtHeader (s.inByte (p + 5)) (tagSize s p) (p + 10) = .ok x) : ExtFits s p ∧ x = extRead s p := by
  unfold State.readExtHeader at hr
  simp only at hr
  split at hr
  · rename_i hf
    have hno : ¬ ExtFlag s p := fun h => by simp [(extFlagSet_iff s p).2 h] at hf
    cases hr
    exact ⟨fun h => absurd h hno, (extRead_of_no_flag hno).symm⟩
  · rename_i hf
    have hyes : ExtFlag s p := (extFlagSet_iff s p).1 (by simpa using hf)
    split at hr
    · cases hr
    · split at hr
      · cases hr
      · split at hr
        · rename_i hc
          have hnc : ¬ ExtCrcBit s p := fun h => by
            have := (crcFlag_iff s p).2 h
            rw [this] at hc
            cases hc
          cases hr
          refine ⟨fun _ => ?_, (extRead_of_no_crc hyes hnc).symm⟩
          rw [extLen_of_flag hyes, if_neg hnc]
          omega
        · rename_i hc
          have hcb : ExtCrcBit s p := (crcFlag_iff s p).1 (by simpa using hc)
          split at hr
          · cases hr
          · split at hr
            · cases hr
            · cases hr
              refine ⟨fun _ => ?_, (extRead_of_crc hyes hcb).symm⟩
              rw [extLen_of_flag hyes, if_pos hcb]
              omega

/-- An extended header that fits is read. -/
theorem State.readExtHeader_of_fits {s : State} {p : Nat} (h : ExtFits s p) :
    s.readExtHeader (s.inByte (p + 5)) (tagSize s p) (p + 10) = .ok (extRead s p) := by
  by_cases hf : ExtFlag s p
  · obtain ⟨hsz, hin⟩ := h hf
    rw [extLen_of_flag hf] at hsz hin
    have hfs : ¬ s.extFlagSet (s.inByte (p + 5)) = false := by simpa using (extFlagSet_iff s p).2 hf
    by_cases hc : ExtCrcBit s p
    · rw [if_pos hc] at hsz hin
      have hcf : ¬ crcFlag (BitVec.ofNat 16 (be16 (s.memRead2 (p + 10 + 4)))) = false := by
        simpa using (crcFlag_iff s p).2 hc
      rw [State.readExtHeader, if_neg hfs, if_neg (by omega), if_neg (by omega)]
      simp only
      rw [if_neg hcf, if_neg (by omega), if_neg (by omega), extRead_of_crc hf hc]
    · rw [if_neg hc] at hsz hin
      have hcf : crcFlag (BitVec.ofNat 16 (be16 (s.memRead2 (p + 10 + 4)))) = false := by
        cases hh : crcFlag (BitVec.ofNat 16 (be16 (s.memRead2 (p + 10 + 4))))
        · rfl
        · exact absurd ((crcFlag_iff s p).1 hh) hc
      rw [State.readExtHeader, if_neg hfs, if_neg (by omega), if_neg (by omega)]
      simp only
      rw [if_pos hcf, extRead_of_no_crc hf hc]
  · have hfs : s.extFlagSet (s.inByte (p + 5)) = false := by
      cases hh : s.extFlagSet (s.inByte (p + 5))
      · rfl
      · exact absurd ((extFlagSet_iff s p).1 hh) hf
    rw [State.readExtHeader, if_pos hfs, extRead_of_no_flag hf]

/-- The extended-header phase raises CorruptTag and TruncatedStream only. -/
theorem State.readExtHeader_error {s : State} {hf : Byte} {size p : Nat} {e : CmdError}
    (hr : s.readExtHeader hf size p = .error e) : e.code = 2 ∨ e.code = 3 := by
  unfold State.readExtHeader at hr
  simp only at hr
  repeat' split at hr
  all_goals cases hr
  all_goals simp [CmdError.code]

/-! ### The frame loop -/

/-- The frame loop raises CorruptTag, TruncatedStream and CapacityExceeded only. -/
theorem State.readFrames_error {s : State} {fuel p avail n : Nat} {e : CmdError}
    (hr : s.readFrames fuel p avail n = .error e) : e.code = 2 ∨ e.code = 3 ∨ e.code = 6 := by
  induction fuel generalizing p avail n with
  | zero => cases hr
  | succ fuel ih =>
    rw [State.readFrames] at hr
    have rest : ∀ (r : Except CmdError TagBody) (g : TagBody → TagBody), r.map g = .error e → r = .error e := by
      intro r g h
      cases r with
      | error d => simpa [Except.map] using h
      | ok b => simp [Except.map] at h
    repeat' split at hr
    all_goals first
      | exact ih (rest _ _ hr)
      | (cases hr; done)
      | (cases hr; simp [CmdError.code])

theorem allZero_memRead_iff (s : State) (p n : Nat) : allZero (s.memRead p n) = true ↔ ∀ j < n, s.inByte (p + j) = 0 := by
  rw [allZero_iff, State.memRead_eq_map]
  simp

theorem memRead4_ne_zero_iff (s : State) (p : Nat) :
    allZero (s.memRead4 p).toList = false ↔ inBytes s p 4 ≠ [0, 0, 0, 0] := by
  rw [State.memRead4_toList, inBytes_eq_memRead]
  simp only [State.memRead, allZero, List.all_cons, List.all_nil, ne_eq, List.cons.injEq, and_true, Bool.and_true,
    Bool.and_eq_false_iff, beq_eq_false_iff_ne, Classical.not_and_iff_not_or_not]

/-- One good frame: the loop stores it and goes on after it. -/
theorem State.readFrames_frame {s : State} {fuel p avail n : Nat} (hid : inBytes s p 4 ≠ [0, 0, 0, 0])
    (hbound : 10 + s.frameSizeAt p ≤ avail) (hin : p + 10 + s.frameSizeAt p ≤ s.inLen.toNat)
    (hn : n < s.cfg.maxFrames) (hpay : s.frameSizeAt p ≤ s.cfg.maxPayload) :
    s.readFrames (fuel + 1) p avail n =
      (s.readFrames fuel (p + 10 + s.frameSizeAt p) (avail - (10 + s.frameSizeAt p)) (n + 1)).map
        (TagBody.prepend [s.frameAt p]) := by
  rw [State.readFrames, if_neg (by omega), if_neg (by omega), if_neg (by omega),
    if_neg (by simpa using (memRead4_ne_zero_iff s p).2 hid), if_neg (by omega), if_neg (by omega), if_neg (by omega),
    if_neg (by omega)]

/-- What a frame loop that succeeds read (42_tag_codec.md R179 to R181), given enough iterations (R182). -/
theorem State.readFrames_ok {s : State} {fuel p avail n : Nat} {b : TagBody} (h : s.readFrames fuel p avail n = .ok b)
    (hfuel : avail / 10 < fuel) :
    FramesAt s p n b.frames ∧ b.pos = p + extent b.frames ∧ avail = extent b.frames + b.avail ∧
      b.pad = decide (0 < b.avail) ∧ (0 < b.avail → PaddingAt s b.pos b.avail) := by
  induction fuel generalizing p avail n b with
  | zero => omega
  | succ fuel ih =>
    rw [State.readFrames] at h
    split at h
    · cases h
      exact ⟨trivial, rfl, by simp, by simp [*], fun hpos => absurd hpos (by simp [*])⟩
    · split at h
      · split at h
        · cases h
        · split at h
          · rename_i h0 h10 hlen hz
            cases h
            refine ⟨trivial, rfl, by simp, by simp; omega, fun _ => ⟨?_, (allZero_memRead_iff s p _).1 hz⟩⟩
            simp only [padRead, if_pos h10]
            omega
          · cases h
      · split at h
        · cases h
        · split at h
          · rename_i h0 h10 hlen hz
            cases h
            refine ⟨trivial, rfl, by simp, by simp; omega, fun _ => ⟨?_, ?_⟩⟩
            · simp only [padRead, if_neg h10]
              omega
            · rw [State.memRead4_toList] at hz
              have h4 : min 4 avail = 4 := by omega
              rw [h4]
              exact (allZero_memRead_iff s p 4).1 hz
          · split at h
            · cases h
            · split at h
              · cases h
              · split at h
                · cases h
                · split at h
                  · cases h
                  · rename_i h0 h10 hlen hz hbound hin hn hpay
                    cases hrest : s.readFrames fuel (p + 10 + s.frameSizeAt p) (avail - (10 + s.frameSizeAt p)) (n + 1) with
                    | error e => simp [hrest, Except.map] at h
                    | ok b' =>
                      rw [hrest] at h
                      cases h
                      simp only [TagBody.prepend, List.singleton_append]
                      obtain ⟨hfr, hpos, hav, hpad, hpd⟩ := ih hrest (by omega)
                      have hlen' : (s.frameAt p).data.length = s.frameSizeAt p := by simp [State.frameAt]
                      refine ⟨⟨(frameIn_eq s p).symm, (memRead4_ne_zero_iff s p).1 (by simpa using hz), by rw [hlen']; omega,
                        by omega, by rw [hlen']; omega, by rw [hlen']; exact hfr⟩, ?_, ?_, hpad, hpd⟩
                      · simp only [extent_cons, hlen', hpos]
                        omega
                      · simp only [extent_cons, hlen']
                        omega

/-- A run of good frames: the loop stores them all and goes on after them. -/
theorem State.readFrames_append {s : State} {fs : List Frame} {fuel p avail n : Nat} (h : FramesAt s p n fs)
    (hext : extent fs ≤ avail) :
    s.readFrames (fuel + fs.length) p avail n =
      (s.readFrames fuel (p + extent fs) (avail - extent fs) (n + fs.length)).map (TagBody.prepend fs) := by
  induction fs generalizing p avail n with
  | nil =>
    simp only [List.length_nil, Nat.add_zero, extent_nil, Nat.sub_zero]
    cases s.readFrames fuel p avail n <;> rfl
  | cons f fs ih =>
    obtain ⟨hf, hid, hin, hn, hpay, hrest⟩ := h
    rw [frameIn_eq] at hf
    have hlen : f.data.length = s.frameSizeAt p := by simp [hf, State.frameAt]
    rw [extent_cons, hlen] at hext
    rw [hlen] at hin hpay hrest
    rw [List.length_cons, ← Nat.add_assoc, State.readFrames_frame hid (by omega) (by omega) (by omega) (by omega),
      ih hrest (by omega), extent_cons, hlen, hf]
    rw [show p + 10 + s.frameSizeAt p + extent fs = p + (10 + s.frameSizeAt p + extent fs) by omega,
      show avail - (10 + s.frameSizeAt p) - extent fs = avail - (10 + s.frameSizeAt p + extent fs) by omega,
      show n + 1 + fs.length = n + (fs.length + 1) by omega]
    cases s.readFrames fuel (p + (10 + s.frameSizeAt p + extent fs)) (avail - (10 + s.frameSizeAt p + extent fs))
      (n + (fs.length + 1)) <;> rfl

/-- The tag bytes are used up: the loop stops without padding. -/
theorem State.readFrames_end (s : State) (fuel p n : Nat) :
    s.readFrames (fuel + 1) p 0 n = .ok { frames := [], pad := false, pos := p, avail := 0 } := by
  rw [State.readFrames, if_pos rfl]

/-- Padding stops the loop (42_tag_codec.md R180, R181). -/
theorem State.readFrames_padding {s : State} {fuel p avail n : Nat} (h0 : 0 < avail) (h : PaddingAt s p avail) :
    s.readFrames (fuel + 1) p avail n = .ok { frames := [], pad := true, pos := p, avail := avail } := by
  obtain ⟨hin, hz⟩ := h
  rw [State.readFrames, if_neg (by omega)]
  by_cases h10 : avail < 10
  · simp only [padRead, if_pos h10] at hin
    rw [if_pos h10, if_neg (by omega), if_pos ((allZero_memRead_iff s p _).2 hz)]
  · simp only [padRead, if_neg h10] at hin
    have h4 : min 4 avail = 4 := by omega
    rw [h4] at hz
    rw [if_neg h10, if_neg (by omega), if_pos (by rw [State.memRead4_toList]; exact (allZero_memRead_iff s p 4).2 hz)]

/-- Frames take at least 10 bytes each, so a run has no more frames than a tenth of its bytes. -/
theorem length_le_extent (fs : List Frame) : fs.length * 10 ≤ extent fs := by
  induction fs with
  | nil => simp
  | cons f fs ih =>
    rw [extent_cons, List.length_cons]
    omega

/-- The frames of a run keep the store's bounds (10_state.md R37, R38), and every one has term = 0x00. -/
theorem framesAt_bounds {s : State} {p n : Nat} {fs : List Frame} (h : FramesAt s p n fs) :
    (fs ≠ [] → n + fs.length ≤ s.cfg.maxFrames) ∧ ∀ f ∈ fs, f.data.length ≤ s.cfg.maxPayload ∧ f.term = 0 := by
  induction fs generalizing p n with
  | nil => simp
  | cons f fs ih =>
    obtain ⟨hf, hid, hin, hn, hpay, hrest⟩ := h
    obtain ⟨hlen, hall⟩ := ih hrest
    constructor
    · intro _
      rw [List.length_cons]
      by_cases hne : fs = []
      · simp only [hne, List.length_nil]
        omega
      · have := hlen hne
        omega
    · intro g hg
      obtain rfl | hg := List.mem_cons.1 hg
      · exact ⟨hpay, by rw [hf]; rfl⟩
      · exact hall g hg

/-- The bytes of IN that a run of frames occupies are the frames' bytes written out. -/
theorem framesAt_bytes {s : State} {p n : Nat} {fs : List Frame} (h : FramesAt s p n fs) :
    framesBytes fs = s.memRead p (extent fs) := by
  induction fs generalizing p n with
  | nil => rfl
  | cons f fs ih =>
    obtain ⟨hf, hid, hin, hn, hpay, hrest⟩ := h
    rw [frameIn_eq] at hf
    have hlen : f.data.length = s.frameSizeAt p := by simp [hf, State.frameAt]
    have hb : f.bytes = s.memRead p (10 + s.frameSizeAt p) := by rw [hf, State.frameAt_bytes]
    have hrec := ih hrest
    rw [framesBytes] at hrec
    rw [framesBytes, List.flatMap_cons, hrec, hb, extent_cons, State.memRead_add _ _ (10 + f.data.length), hlen,
      show p + 10 + s.frameSizeAt p = p + (10 + s.frameSizeAt p) by omega]

end Sys2Proof.Machine
end

