-- ==== Sys2Proof/Laws/Step.lean ====
section
/-!
SUPPORT. What a command keeps whatever its outcome, and what one step can do: one lemma for each host access, and the inversion of a step.
-/

namespace Sys2Proof.Machine

/-! ### Commands -/

/-- The fields no command writes (20_memory.md section 1, 10_state.md section 1). -/
structure State.Keeps (s t : State) : Prop where
  cfg : t.cfg = s.cfg
  cmd : t.cmd = s.cmd
  busy : t.status.busy = s.status.busy
  arg0 : t.arg0 = s.arg0
  inLen : t.inLen = s.inLen
  inMem : t.inMem = s.inMem
  hostProg : t.hostProg = s.hostProg
  hostPos : t.hostPos = s.hostPos
  hostSeen : t.hostSeen = s.hostSeen
  resets : t.resets = s.resets
  freeReads : t.freeReads = s.freeReads

theorem exec_keeps {i : Instr} {s t : State} (h : exec i s = .next t) : s.Keeps t := by
  obtain ⟨u, hu, rfl, -⟩ | ⟨e, -, rfl, -⟩ := exec_cases h
  · cases i with
    | ssdec => obtain rfl := State.ssdecStaged_ok hu; constructor <;> rfl
    | ssenc => obtain ⟨-, rfl⟩ := State.ssencStaged_ok hu; constructor <;> rfl
    | frd => obtain ⟨-, -, -, rfl⟩ := State.frdStaged_ok hu; constructor <;> rfl
    | fwr k =>
      obtain ⟨f, -, h2⟩ := State.withFrame_ok hu
      obtain ⟨-, rfl⟩ := State.fwrFrame_ok h2
      constructor <;> rfl
    | trd => obtain ⟨_, _, _, -, -, -, rfl⟩ := State.trdStaged_ok hu; constructor <;> rfl
    | twr => obtain ⟨-, -, rfl⟩ := State.twrStaged_ok hu; constructor <;> rfl
    | cls k =>
      obtain ⟨f, -, h2⟩ := State.withFrame_ok hu
      obtain ⟨-, rfl⟩ := State.clsFrame_ok h2
      constructor <;> rfl
    | tclr => obtain rfl := State.tclrStaged_ok hu; constructor <;> rfl
  · constructor <;> rfl

theorem State.inByte_congr {s t : State} (hm : t.inMem = s.inMem) (hr : t.resets = s.resets) (a : Nat) :
    t.inByte a = s.inByte a := by
  rw [State.inByte, State.inByte, hm, hr]

/-! ### Issuing a command -/

theorem State.issue_of_ok (s : State) {w : Word} {i : Instr} (h : decode w = .ok i) : s.issue w = exec i { s with cmd := w } := by
  rw [State.issue, h]

theorem State.issue_of_error (s : State) {w : Word} {r : DecodeReject} (h : decode w = .error r) :
    s.issue w = .next (({ s with cmd := w } : State).raise (.illegalCommand w r.reason)) := by
  rw [State.issue, h]

/-! ### Host accesses, one at a time -/

theorem bytes4?_toList (b : Bytes4) : bytes4? b.toList = some b := rfl
theorem bytes2?_toList (b : Bytes2) : bytes2? b.toList = some b := rfl

theorem bytes4?_eq_none_iff (l : List Byte) : bytes4? l = none ↔ l.length ≠ 4 := by
  unfold bytes4?
  split
  · simp
  · rename_i h
    simp only [true_iff]
    intro hl
    match l, hl with
    | [a, b, c, d], _ => exact h a b c d rfl

theorem bytes2?_eq_none_iff (l : List Byte) : bytes2? l = none ↔ l.length ≠ 2 := by
  unfold bytes2?
  split
  · simp
  · rename_i h
    simp only [true_iff]
    intro hl
    match l, hl with
    | [a, b], _ => exact h a b rfl

theorem State.hostFrame?_of_fits {s : State} (id : Bytes4) (flags : Bytes2) {data : List Byte} (term : Byte)
    (h : data.length ≤ s.cfg.maxPayload) :
    s.hostFrame? id.toList flags.toList data term = some { id := id, flags := flags, data := data, term := term } := by
  rw [State.hostFrame?, bytes4?_toList, bytes2?_toList]
  exact if_pos h

theorem State.hostFrame?_eq_none {s : State} {id flags data : List Byte} {term : Byte}
    (h : id.length ≠ 4 ∨ flags.length ≠ 2 ∨ s.cfg.maxPayload < data.length) : s.hostFrame? id flags data term = none := by
  unfold State.hostFrame?
  split
  · rename_i h4 h2
    obtain h | h | h := h
    · rw [(bytes4?_eq_none_iff id).2 h] at h4; cases h4
    · rw [(bytes2?_eq_none_iff flags).2 h] at h2; cases h2
    · exact if_neg (by omega)
  · rfl

theorem State.hostFrame?_ok {s : State} {id flags data : List Byte} {term : Byte} {f : Frame}
    (h : s.hostFrame? id flags data term = some f) : f.data.length ≤ s.cfg.maxPayload := by
  unfold State.hostFrame? at h
  split at h
  · split at h
    · cases h; assumption
    · cases h
  · cases h

/-- A read that goes on gives the block unchanged, but for what the host saw and the count of unspecified reads. -/
theorem State.hostReadOut_next {s t : State} {a : Nat} (h : s.hostReadOut a = .next t) :
    t = { s with hostSeen := t.hostSeen, freeReads := t.freeReads } := by
  unfold State.hostReadOut at h
  repeat' split at h
  all_goals cases h <;> rfl

theorem State.hostReadCout_next {s t : State} {a : Nat} (h : s.hostReadCout a = .next t) :
    t = { s with hostSeen := t.hostSeen, freeReads := t.freeReads } := by
  unfold State.hostReadCout at h
  repeat' split at h
  all_goals cases h <;> rfl

theorem State.hostReadIn_next {s t : State} {a : Nat} (h : s.hostReadIn a = .next t) :
    t = s.hostSees (.byte (s.inByteRead a)) := by
  unfold State.hostReadIn at h
  split at h <;> cases h
  rfl

theorem State.inByteRead_of_lt {s : State} {a : Nat} (h : a < s.inLen.toNat) : s.inByteRead a = s.inByte a := if_pos h

/-- What a host read of IN returns depends on IN, IN_LEN and the resets only, so no read changes it (20_memory.md R71). -/
theorem State.inByteRead_congr {s t : State} (hm : t.inMem = s.inMem) (hl : t.inLen = s.inLen) (hr : t.resets = s.resets)
    (a : Nat) : t.inByteRead a = s.inByteRead a := by
  rw [State.inByteRead, State.inByteRead, State.inByte_congr hm hr, hl, hr]

/-- A host read below IN_CAP shows the host a byte and does nothing else. -/
theorem State.hostReadIn_of_lt {s : State} {a : Nat} (h : a < s.cfg.inCap ∨ a < s.inLen.toNat) :
    s.hostReadIn a = .next (s.hostSees (.byte (s.inByteRead a))) := if_pos h

theorem State.hostReadFrame_next {s t : State} {k : Nat} (h : s.hostReadFrame k = .next t) :
    t = { s with hostSeen := t.hostSeen } := by
  unfold State.hostReadFrame at h
  split at h <;> cases h
  rfl

theorem State.hostWriteFrame_next {s t : State} {k : Nat} {id flags data : List Byte} {term : Byte}
    (h : s.hostWriteFrame k id flags data term = .next t) :
    ∃ f : Frame, f.data.length ≤ s.cfg.maxPayload ∧ k < s.frames.length ∧ t = { s with frames := s.frames.set k f } := by
  unfold State.hostWriteFrame at h
  split at h
  · split at h
    · cases h
      exact ⟨_, State.hostFrame?_ok ‹_›, ‹_›, rfl⟩
    · cases h
  · cases h

theorem State.hostAppendFrame_next {s t : State} {id flags data : List Byte} {term : Byte}
    (h : s.hostAppendFrame id flags data term = .next t) :
    ∃ f : Frame, f.data.length ≤ s.cfg.maxPayload ∧ s.frames.length < s.cfg.maxFrames ∧
      t = { s with frames := s.frames ++ [f] } := by
  unfold State.hostAppendFrame at h
  split at h
  · split at h
    · cases h
      exact ⟨_, State.hostFrame?_ok ‹_›, ‹_›, rfl⟩
    · cases h
  · cases h

/-- BRERR moves the host and shows it STATUS; the block is untouched. -/
theorem State.hostBrErr_eq (s : State) (label : Nat) :
    s.hostBrErr label = { s with
      hostPos := if s.status.err = 0 then s.hostPos else label
      hostSeen := some (.word s.status.word) } := by
  unfold State.hostBrErr State.hostSees
  simp only
  split <;> rfl

/-! ### One step -/

theorem step_of_none {s : State} (h : s.nextAccess = none) : step s = .next s := by rw [step, h]

theorem step_of_some {s : State} {a : HostAccess} (h : s.nextAccess = some a) : step s = s.advanceHost.access a := by
  rw [step, h]

theorem State.access_of_idle {s : State} (h : s.status.busy = false) (a : HostAccess) : s.access a = s.perform a :=
  if_neg (by simp [h])

theorem State.access_resetSignal (s : State) : s.access .resetSignal = .next s.hostReset := if_neg (by simp)

theorem State.access_of_busy {s : State} {a : HostAccess} (h : s.status.busy = true) (ha : a ≠ .resetSignal) :
    s.access a = .refused .hostAccessWhileBusy := if_pos ⟨h, ha⟩

/-- A step of an idle block performs the host's next access. -/
theorem step_of_idle {s : State} {a : HostAccess} (hb : s.status.busy = false) (h : s.nextAccess = some a) :
    step s = s.advanceHost.perform a := by
  rw [step_of_some h, State.access_of_idle (by exact hb)]

/-- A CMD write that is about to happen issues the command. -/
theorem step_of_aboutToIssue {s : State} {w : Word} (h : s.AboutToIssue w) : step s = s.advanceHost.issue w := by
  rw [step_of_idle h.idle h.next, State.perform, if_pos rfl]

/-- A word that decodes runs as the command it spells. -/
theorem step_of_decode_ok {s : State} {w : Word} {i : Instr} (h : s.AboutToIssue w) (hd : decode w = .ok i) :
    step s = exec i (s.issued w) := by
  rw [step_of_aboutToIssue h, State.issue_of_ok _ hd]
  rfl

/-- A word that decodes to no command raises IllegalCommand. -/
theorem step_of_decode_error {s : State} {w : Word} {r : DecodeReject} (h : s.AboutToIssue w) (hd : decode w = .error r) :
    step s = .next ((s.issued w).raise (.illegalCommand w r.reason)) := by
  rw [step_of_aboutToIssue h, State.issue_of_error _ hd]
  rfl

/-- Everything one step that goes on can have done: nothing, a reset, a command, an illegal command word, a register write, a write of IN, a write of
the store, or something that touches the host's half only. -/
inductive StepKind (s t : State) : Prop where
  | idle (h : s.nextAccess = none) (ht : t = s)
  | reset (h : s.nextAccess = some .resetSignal) (ht : t = s.advanceHost.hostReset)
  | command (w : Word) (i : Instr) (h : s.AboutToIssue w) (hd : decode w = .ok i) (ht : exec i (s.issued w) = .next t)
  | illegal (w : Word) (r : DecodeReject) (h : s.AboutToIssue w) (hd : decode w = .error r)
      (ht : t = (s.issued w).raise (.illegalCommand w r.reason))
  | register (n : Nat) (v : Word) (h : s.nextAccess = some (.writeReg n v)) (hn : n ≠ 0) (hb : s.status.busy = false)
      (ht : t = s.advanceHost.writeReg n v)
  | input (a : Nat) (b : Byte) (h : s.nextAccess = some (.writeIn a b)) (hb : s.status.busy = false)
      (ht : t = s.advanceHost.hostWriteIn a b)
  | frameSet (k : Nat) (f : Frame) (hf : f.data.length ≤ s.cfg.maxPayload) (hk : k < s.frames.length)
      (hb : s.status.busy = false) (h : s.nextAccess ≠ some .resetSignal)
      (ht : t = { s.advanceHost with frames := s.frames.set k f })
  | frameAppend (f : Frame) (hf : f.data.length ≤ s.cfg.maxPayload) (hn : s.frames.length < s.cfg.maxFrames)
      (hb : s.status.busy = false) (h : s.nextAccess ≠ some .resetSignal)
      (ht : t = { s.advanceHost with frames := s.frames ++ [f] })
  | hostOnly (hb : s.status.busy = false) (h : s.nextAccess ≠ some .resetSignal)
      (ht : t = { s with hostPos := t.hostPos, hostSeen := t.hostSeen, freeReads := t.freeReads })

/-- The inversion of a step. -/
theorem step_kind {s t : State} (h : step s = .next t) : StepKind s t := by
  cases hn : s.nextAccess with
  | none =>
    rw [step_of_none hn] at h
    exact .idle hn (Host.Outcome.next.inj h).symm
  | some a =>
    by_cases hr : a = .resetSignal
    · subst hr
      rw [step_of_some hn, State.access_resetSignal] at h
      exact .reset hn (Host.Outcome.next.inj h).symm
    · have hnr : s.nextAccess ≠ some .resetSignal := by rw [hn]; simpa using hr
      cases hb : s.status.busy with
      | true =>
        rw [step_of_some hn, State.access_of_busy (by exact hb) hr] at h
        cases h
      | false =>
        rw [step_of_idle hb hn] at h
        have only : ∀ u v w, t = { s.advanceHost with hostPos := u, hostSeen := v, freeReads := w } → StepKind s t := by
          intro u v w ht
          refine .hostOnly hb hnr ?_
          rw [ht]
          rfl
        cases a with
        | readReg n => exact only _ _ _ (Host.Outcome.next.inj h).symm
        | writeReg n v =>
          by_cases h0 : n = 0
          · subst h0
            have ha : s.AboutToIssue v := ⟨hb, hn⟩
            have h' : step s = .next t := by rw [step_of_idle hb hn]; exact h
            cases hd : decode v with
            | ok i => exact .command v i ha hd (by rw [← step_of_decode_ok ha hd]; exact h')
            | error r =>
              rw [step_of_decode_error ha hd] at h'
              exact .illegal v r ha hd (Host.Outcome.next.inj h').symm
          · have hw : s.advanceHost.perform (.writeReg n v) = .next (s.advanceHost.writeReg n v) := if_neg h0
            rw [hw] at h
            exact .register n v hn h0 hb (Host.Outcome.next.inj h).symm
        | readIn a =>
          have := State.hostReadIn_next h
          exact only _ _ _ this
        | writeIn a b => exact .input a b hn hb (Host.Outcome.next.inj h).symm
        | readOut a =>
          have := State.hostReadOut_next h
          exact only _ _ _ this
        | readCout a =>
          have := State.hostReadCout_next h
          exact only _ _ _ this
        | readFrame k =>
          have := State.hostReadFrame_next h
          exact only _ _ _ this
        | writeFrame k id flags data term =>
          obtain ⟨f, hf, hk, ht⟩ := State.hostWriteFrame_next h
          exact .frameSet k f hf hk hb hnr ht
        | appendFrame id flags data term =>
          obtain ⟨f, hf, hk, ht⟩ := State.hostAppendFrame_next h
          exact .frameAppend f hf hk hb hnr ht
        | brErr label =>
          have ht := (Host.Outcome.next.inj h).symm.trans (State.hostBrErr_eq s.advanceHost label)
          exact only _ _ _ ht
        | resetSignal => exact absurd rfl hr

end Sys2Proof.Machine
end

