-- ==== Sys2Proof/Laws/Inv.lean ====
section
/-!
SUPPORT. The invariant of the block, operation by operation: what each shared operation needs to keep it.
-/

namespace Sys2Proof.Machine

open Sys2Proof.Spec

/-- The memories of the state after reset are in canonical form. -/
theorem State.resetWith_memory_wf (c : Config) :
    Memory.wf (State.resetWith c).inMem ∧ Memory.wf (State.resetWith c).outMem ∧ Memory.wf (State.resetWith c).coutMem :=
  ⟨Memory.wf_nil, Memory.wf_nil, Memory.wf_nil⟩

/-- The invariant reads the parameters, the four lengths, the store, the memories, BUSY and ERR, and nothing else. -/
theorem State.Inv.of_eq {s t : State} (h : s.Inv) (hcfg : t.cfg = s.cfg) (hrptr : t.rptr = s.rptr) (hin : t.inLen = s.inLen)
    (hout : t.outLen = s.outLen) (hcout : t.coutLen = s.coutLen) (hfs : t.frames = s.frames) (him : t.inMem = s.inMem)
    (hom : t.outMem = s.outMem) (hcm : t.coutMem = s.coutMem) (hb : t.status.busy = s.status.busy)
    (he : t.status.err.toNat ≤ 6) : t.Inv := by
  obtain ⟨h1, ⟨h2, h3, h4, h5⟩, ⟨h6, h7⟩, ⟨h8, h9, h10, h11, h12, h13, h14, h15⟩, h16, h17⟩ := h
  rw [← hcfg] at h1 h3 h4 h5 h6 h7 h11 h12 h13
  rw [← hrptr] at h2
  rw [← hin] at h2 h3
  rw [← hout] at h4 h14
  rw [← hcout] at h5 h15
  rw [← hfs] at h6 h7
  rw [← him] at h8 h11
  rw [← hom] at h9 h12 h14
  rw [← hcm] at h10 h13 h15
  rw [← hb] at h16
  exact ⟨h1, ⟨h2, h3, h4, h5⟩, ⟨h6, h7⟩, ⟨h8, h9, h10, h11, h12, h13, h14, h15⟩, h16, he⟩

theorem State.Inv.commit {s : State} (h : s.Inv) : s.commit.Inv :=
  h.of_eq rfl rfl rfl rfl rfl rfl rfl rfl rfl rfl (Nat.zero_le _)

theorem State.Inv.setResults {s : State} (h : s.Inv) (r0 r1 : Nat) : (s.setResults r0 r1).Inv :=
  h.of_eq rfl rfl rfl rfl rfl rfl rfl rfl rfl rfl h.err_le

theorem State.Inv.raise {s : State} (h : s.Inv) (e : CmdError) : (s.raise e).Inv :=
  h.of_eq rfl rfl rfl rfl rfl rfl rfl rfl rfl rfl e.code_range.2

theorem State.Inv.advanceHost {s : State} (h : s.Inv) : s.advanceHost.Inv :=
  h.of_eq rfl rfl rfl rfl rfl rfl rfl rfl rfl rfl h.err_le

theorem State.Inv.issued {s : State} (h : s.Inv) (w : Word) : (s.issued w).Inv :=
  h.of_eq rfl rfl rfl rfl rfl rfl rfl rfl rfl rfl h.err_le

/-- Appending to OUT within the capacity (20_memory.md R62). -/
theorem State.Inv.appendOut {s : State} (h : s.Inv) {bs : List Byte} (hroom : s.outLen.toNat + bs.length ≤ s.cfg.outCap) :
    (s.appendOut bs).Inv := by
  obtain ⟨h1, ⟨h2, h3, h4, h5⟩, h6, ⟨h8, h9, h10, h11, h12, h13, h14, h15⟩, h16, h17⟩ := h
  have hlen : (s.appendOut bs).outLen.toNat = s.outLen.toNat + bs.length := by
    have := h1.outCap_le
    rw [State.appendOut, BitVec.toNat_ofNat]
    exact Nat.mod_eq_of_lt (by omega)
  refine ⟨h1, ⟨h2, h3, ?_, h5⟩, ⟨h6.1, h6.2⟩,
    ⟨h8, Memory.wf_setRun _ _ h9, h10, h11, Memory.below_setRun _ h12 hroom, h13, ?_, h15⟩, h16, h17⟩
  · rw [hlen]; exact hroom
  · rw [hlen]; exact Memory.filled_setRun bs h14

/-- Replacing COUT within the capacity (20_memory.md R63). -/
theorem State.Inv.replaceCout {s : State} (h : s.Inv) {us : List CodeUnit} (hroom : us.length ≤ s.cfg.coutCap) :
    (s.replaceCout us).Inv := by
  obtain ⟨h1, ⟨h2, h3, h4, h5⟩, h6, ⟨h8, h9, h10, h11, h12, h13, h14, h15⟩, h16, h17⟩ := h
  have hlen : (s.replaceCout us).coutLen.toNat = us.length := by
    have := h1.coutCap_le
    rw [State.replaceCout, BitVec.toNat_ofNat]
    exact Nat.mod_eq_of_lt (by omega)
  refine ⟨h1, ⟨h2, h3, h4, ?_⟩, ⟨h6.1, h6.2⟩,
    ⟨h8, h9, Memory.wf_setRun _ _ h10, h11, h12, Memory.below_setRun _ h13 (by rw [Nat.zero_add]; exact hroom), h14, ?_⟩, h16, h17⟩
  · rw [hlen]; exact hroom
  · rw [hlen]
    have := Memory.filled_setRun us (Memory.filled_zero s.coutMem)
    rwa [Nat.zero_add] at this

/-- A new store and a new read pointer within their bounds. -/
theorem State.Inv.setStore {s t : State} (h : s.Inv) (hn : t.frames.length ≤ s.cfg.maxFrames)
    (hp : ∀ f ∈ t.frames, f.data.length ≤ s.cfg.maxPayload) (hr : t.rptr.toNat ≤ s.inLen.toNat) (hcfg : t.cfg = s.cfg)
    (hin : t.inLen = s.inLen) (hout : t.outLen = s.outLen) (hcout : t.coutLen = s.coutLen) (him : t.inMem = s.inMem)
    (hom : t.outMem = s.outMem) (hcm : t.coutMem = s.coutMem) (hb : t.status.busy = s.status.busy)
    (he : t.status.err = s.status.err) : t.Inv := by
  have base : ({ s with frames := t.frames, rptr := t.rptr } : State).Inv := by
    obtain ⟨h1, ⟨h2, h3, h4, h5⟩, -, hm, h16, h17⟩ := h
    exact ⟨h1, ⟨hr, h3, h4, h5⟩, ⟨hn, hp⟩, ⟨hm.1, hm.2, hm.3, hm.4, hm.5, hm.6, hm.7, hm.8⟩, h16, h17⟩
  exact base.of_eq hcfg rfl hin hout hcout rfl him hom hcm hb (by rw [he]; exact h.err_le)

/-- A host write of IN keeps the form and the capacity of the memory (20_memory.md R61). -/
theorem State.Inv.hostWriteIn {s : State} (h : s.Inv) (a : Nat) (b : Byte) : (s.hostWriteIn a b).Inv := by
  unfold State.hostWriteIn
  split
  · obtain ⟨h1, h2, h3, ⟨h8, h9, h10, h11, h12, h13, h14, h15⟩, h16, h17⟩ := h
    exact ⟨h1, ⟨h2.1, h2.2, h2.3, h2.4⟩, ⟨h3.1, h3.2⟩,
      ⟨Memory.wf_set _ _ h8, h9, h10, Memory.below_set _ h11 (by assumption), h12, h13, h14, h15⟩, h16, h17⟩
  · exact h

theorem State.Inv.writeRptr {s : State} (h : s.Inv) (v : Word) : (s.writeRptr v).Inv :=
  h.setStore h.store.count_le h.store.payload_le
    (by rw [State.writeRptr, BitVec.toNat_ofNat, Nat.mod_eq_of_lt (by omega)]; exact Nat.min_le_right _ _)
    rfl rfl rfl rfl rfl rfl rfl rfl rfl

theorem State.Inv.writeInLen {s : State} (h : s.Inv) (v : Word) : (s.writeInLen v).Inv := by
  obtain ⟨h1, ⟨h2, h3, h4, h5⟩, h6, hm, h16, h17⟩ := h
  have := h1.inCap_le
  refine ⟨h1, ⟨?_, ?_, h4, h5⟩, ⟨h6.1, h6.2⟩, ⟨hm.1, hm.2, hm.3, hm.4, hm.5, hm.6, hm.7, hm.8⟩, h16, h17⟩
  · rw [State.writeInLen, BitVec.toNat_ofNat, BitVec.toNat_ofNat]
    omega
  · rw [State.writeInLen, BitVec.toNat_ofNat]
    show _ ≤ s.cfg.inCap
    omega

theorem State.Inv.writeOutLen {s : State} (h : s.Inv) (v : Word) : (s.writeOutLen v).Inv := by
  unfold State.writeOutLen
  split
  · obtain ⟨h1, ⟨h2, h3, h4, h5⟩, h6, hm, h16, h17⟩ := h
    exact ⟨h1, ⟨h2, h3, Nat.le_trans ‹_› h4, h5⟩, ⟨h6.1, h6.2⟩,
      ⟨hm.1, hm.2, hm.3, hm.4, hm.5, hm.6, Memory.filled_mono hm.7 ‹_›, hm.8⟩, h16, h17⟩
  · exact h

/-- Every host write of a register keeps the invariant. -/
theorem State.Inv.writeReg {s : State} (h : s.Inv) (n : Nat) (v : Word) : (s.writeReg n v).Inv := by
  unfold State.writeReg
  split
  case h_2 => exact h.writeRptr v
  case h_3 => exact h.writeInLen v
  case h_4 => exact h.writeOutLen v
  all_goals first | exact h | exact h.of_eq rfl rfl rfl rfl rfl rfl rfl rfl rfl rfl h.err_le

end Sys2Proof.Machine
end

