-- ==== Sys2Proof/Laws/PerInstr.lean ====
section
/-!
SUPPORT. Statements for all instructions, one lemma per constructor.
-/

namespace Sys2Proof.Laws.EncodeFields

/-- The fields of a well-formed command's word are its opcode and its operand (30_encoding.md R90, R97). -/
def Statement (i : Instr) : Prop := i.WellFormed → opcodeField (encode i) = i.opcode ∧ operandField (encode i) = i.operand

theorem ssdec : Statement .ssdec := fun _ => ⟨rfl, rfl⟩
theorem ssenc : Statement .ssenc := fun _ => ⟨rfl, rfl⟩
theorem frd : Statement .frd := fun _ => ⟨rfl, rfl⟩
theorem trd : Statement .trd := fun _ => ⟨rfl, rfl⟩
theorem twr : Statement .twr := fun _ => ⟨rfl, rfl⟩
theorem tclr : Statement .tclr := fun _ => ⟨rfl, rfl⟩

theorem fwr (k : Nat) : Statement (.fwr k) := by
  intro h
  simp only [Instr.WellFormed, Instr.operand] at h
  simp only [opcodeField, operandField, encode, Instr.opcode, Instr.operand, BitVec.toNat_ofNat]
  omega

theorem cls (k : Nat) : Statement (.cls k) := by
  intro h
  simp only [Instr.WellFormed, Instr.operand] at h
  simp only [opcodeField, operandField, encode, Instr.opcode, Instr.operand, BitVec.toNat_ofNat]
  omega

end Sys2Proof.Laws.EncodeFields
end

