-- ==== Sys2Proof/Laws/TagWrite.lean ====
section
/-!
SUPPORT. What TWR writes (42_tag_codec.md R187), by the form of the extended header, and what it writes of a store that TRD has just read.
-/

namespace Sys2Proof.Machine

open Sys2Proof.Spec

/-- A value below 2^32 survives a register. -/
theorem toNat_ofNat_of_lt {n : Nat} (h : n < 2 ^ 32) : (BitVec.ofNat 32 n).toNat = n := by
  rw [BitVec.toNat_ofNat]
  exact Nat.mod_eq_of_lt h

theorem toNat_ofNat_be32 (b : Bytes4) : (BitVec.ofNat 32 (be32 b)).toNat = be32 b := toNat_ofNat_of_lt (be32_lt b)

/-! ### ext_bytes, form by form -/

theorem State.extBytes_of_absent {s : State} (h : s.extCtrl.present = false) : s.extBytes = [] := if_pos h

theorem State.extBytes_of_no_crc {s : State} (h : s.extCtrl.present = true) (hc : s.extCtrl.flags.getLsbD 15 = false) :
    s.extBytes = (be32bytes s.extHsize.toNat).toList ++ (be16bytes s.extCtrl.flags.toNat).toList ++
      (be32bytes s.extPad.toNat).toList := by
  rw [← crcFlag_eq_getLsbD] at hc
  rw [State.extBytes, if_neg (by simp [h]), if_neg (by simp [hc]), List.append_nil]

theorem State.extBytes_of_crc {s : State} (h : s.extCtrl.present = true) (hc : s.extCtrl.flags.getLsbD 15 = true) :
    s.extBytes = (be32bytes s.extHsize.toNat).toList ++ (be16bytes s.extCtrl.flags.toNat).toList ++
      (be32bytes s.extPad.toNat).toList ++ (be32bytes s.extCrc.toNat).toList := by
  rw [← crcFlag_eq_getLsbD] at hc
  rw [State.extBytes, if_neg (by simp [h]), if_pos hc]

/-- The bytes the extended header of a store takes: 0, 10 or 14. -/
def storedExtLen (c : ExtCtrl) : Nat := bif c.present then (bif c.flags.getLsbD 15 then 14 else 10) else 0

theorem length_extBytes (s : State) : s.extBytes.length = storedExtLen s.extCtrl := by
  rw [storedExtLen]
  cases h : s.extCtrl.present with
  | false => rw [State.extBytes_of_absent h]; rfl
  | true =>
    cases hc : s.extCtrl.flags.getLsbD 15 with
    | false => rw [State.extBytes_of_no_crc h hc]; rfl
    | true => rw [State.extBytes_of_crc h hc]; rfl

theorem length_headerBytes (s : State) : s.headerBytes.length = 10 := rfl

/-- The bytes TWR writes: 10, the extended header's, and the frames' (42_tag_codec.md R187). -/
theorem length_tagBytes (s : State) : s.tagBytes.length = 10 + storedExtLen s.extCtrl + extent s.frames := by
  rw [State.tagBytes, List.length_append, List.length_append, length_framesBytes, length_extBytes, length_headerBytes]

/-! ### The extended header TRD stores -/

theorem tagRead_present_iff (s : State) (p : Nat) (fs : List Frame) (pad : Nat) :
    (tagRead s p fs pad).extCtrl.present = true ↔ ExtFlag s p := decide_eq_true_iff

theorem tagRead_crc_iff {s : State} {p : Nat} (h : ExtFlag s p) (fs : List Frame) (pad : Nat) :
    (tagRead s p fs pad).extCtrl.flags.getLsbD 15 = true ↔ ExtCrcBit s p := by
  rw [tagRead_extCtrl, ← crcFlag_eq_getLsbD, ← crcFlag_iff, if_pos h, bigEndian_memRead2]

/-- The extended header TRD stores has the length it was read with. -/
theorem storedExtLen_tagRead (s : State) (p : Nat) (fs : List Frame) (pad : Nat) :
    storedExtLen (tagRead s p fs pad).extCtrl = extLen s p := by
  by_cases h : ExtFlag s p
  · rw [extLen_of_flag h, storedExtLen, (tagRead_present_iff s p fs pad).2 h]
    by_cases hc : ExtCrcBit s p
    · rw [(tagRead_crc_iff h fs pad).2 hc, if_pos hc]
      rfl
    · rw [Bool.eq_false_iff.2 (fun hh => hc ((tagRead_crc_iff h fs pad).1 hh)), if_neg hc]
      rfl
  · rw [extLen_of_no_flag h, storedExtLen, Bool.eq_false_iff.2 (fun hh => h ((tagRead_present_iff s p fs pad).1 hh))]
    rfl

/-- The extended header TRD stored, written out again, is the bytes it was read from (42_tag_codec.md R192). -/
theorem extBytes_tagRead (s : State) (p : Nat) (fs : List Frame) (pad : Nat) :
    (tagRead s p fs pad).extBytes = s.memRead (p + 10) (extLen s p) := by
  by_cases h : ExtFlag s p
  · have hp := (tagRead_present_iff s p fs pad).2 h
    have hflags : (be16bytes (tagRead s p fs pad).extCtrl.flags.toNat).toList = s.memRead (p + 14) 2 := by
      rw [tagRead_extCtrl, if_pos h, bigEndian_memRead2, BitVec.toNat_ofNat, Nat.mod_eq_of_lt (be16_lt _), be16bytes_be16,
        State.memRead2_toList]
    have hhs : (be32bytes (tagRead s p fs pad).extHsize.toNat).toList = s.memRead (p + 10) 4 := by
      rw [tagRead_extHsize, if_pos h, bigEndian_memRead4, toNat_ofNat_be32, be32bytes_be32, State.memRead4_toList]
    have hpd : (be32bytes (tagRead s p fs pad).extPad.toNat).toList = s.memRead (p + 16) 4 := by
      rw [tagRead_extPad, if_pos h, bigEndian_memRead4, toNat_ofNat_be32, be32bytes_be32, State.memRead4_toList]
    by_cases hc : ExtCrcBit s p
    · have hcr : (be32bytes (tagRead s p fs pad).extCrc.toNat).toList = s.memRead (p + 20) 4 := by
        rw [tagRead_extCrc, if_pos ⟨h, hc⟩, bigEndian_memRead4, toNat_ofNat_be32, be32bytes_be32, State.memRead4_toList]
      rw [State.extBytes_of_crc hp ((tagRead_crc_iff h fs pad).2 hc), hflags, hhs, hpd, hcr, extLen_of_flag h, if_pos hc,
        show (14 : Nat) = 4 + 2 + 4 + 4 from rfl, State.memRead_add, State.memRead_add, State.memRead_add]
    · rw [State.extBytes_of_no_crc hp (Bool.eq_false_iff.2 fun hh => hc ((tagRead_crc_iff h fs pad).1 hh)), hflags, hhs, hpd,
        extLen_of_flag h, if_neg hc, show (10 : Nat) = 4 + 2 + 4 from rfl, State.memRead_add, State.memRead_add]
  · rw [State.extBytes_of_absent (Bool.eq_false_iff.2 fun hh => h ((tagRead_present_iff s p fs pad).1 hh)), extLen_of_no_flag h]
    rfl

/-- TRD's header bytes, written out again, are the bytes read, when no size byte has its top bit set. -/
theorem headerBytes_tagRead {s : State} {p : Nat} (fs : List Frame) (pad : Nat) (h : HasHeader s p)
    (ht : topBits (s.memRead4 (p + 6)) = 0) : (tagRead s p fs pad).headerBytes = s.memRead p 10 := by
  have hlt := tagSize_lt s p
  rw [show (10 : Nat) = 3 + (3 + 4) from rfl, State.memRead_add, State.memRead_add, ((hasTagId_iff s p).1 h.1).2,
    State.headerBytes, tagRead_hdrSize, toNat_ofNat_of_lt (by omega), tagSize_eq, ssEncode_ssDecode ht, State.memRead4_toList,
    List.append_assoc]
  rfl

/-- After a TRD, TWR writes the declared size less the padding found (42_tag_codec.md R189). -/
theorem length_tagBytes_tagRead {s : State} {p : Nat} {fs : List Frame} {pad : Nat} (h : TagAt s p fs pad) :
    (tagRead s p fs pad).tagBytes.length = 10 + (tagSize s p - pad) := by
  have := h.size
  rw [length_tagBytes, storedExtLen_tagRead, tagRead_frames]
  omega

/-- After a TRD without padding, TWR writes the tag's own bytes (42_tag_codec.md R192). -/
theorem tagBytes_tagRead {s : State} {p : Nat} {fs : List Frame} (h : TagAt s p fs 0)
    (ht : topBits (s.memRead4 (p + 6)) = 0) : (tagRead s p fs 0).tagBytes = s.memRead p (10 + tagSize s p) := by
  have hsz := h.size
  rw [State.tagBytes, headerBytes_tagRead fs 0 h.header ht, extBytes_tagRead, tagRead_frames, framesAt_bytes h.frames,
    show 10 + tagSize s p = 10 + extLen s p + extent fs by omega, State.memRead_add, State.memRead_add, Nat.add_assoc]

end Sys2Proof.Machine
end

