-- ==== Sys2Proof/Tests/Slice0.lean ====
section
/-!
SUPPORT. Tests on words and vectors taken from the spec (30_encoding.md R92, 95_test_vectors.md), and for every statement of Obligations.lean
a witness that meets its hypotheses.
-/

namespace Sys2Proof.Tests

open Sys2Proof.Machine Sys2Proof.Spec

/-! ### Helpers -/

/-- The next state, when there is one. -/
def after (o : Host.Outcome State Fault Refusal) : Option State :=
  match o with
  | .next t => some t
  | .fault _ => none
  | .refused _ => none

/-- The commands one after another, by exec. -/
def runAll (s : State) : List Instr → Option State
  | [] => some s
  | i :: is =>
    match exec i s with
    | .next t => runAll t is
    | .fault _ => none
    | .refused _ => none

/-- Parameters as 95_test_vectors.md has them, with room for `out` bytes in OUT, `units` in COUT, `frames` frames and `payload` payload bytes. -/
def params (out units frames payload : Nat) : Config :=
  { Config.default with outCap := out, coutCap := units, maxFrames := frames, maxPayload := payload }

/-- The reset state with `IN = bs` (95_test_vectors.md, conventions). -/
def loaded (bs : List Byte) : State :=
  { State.reset with inMem := Memory.setRun [] 0 bs, inLen := BitVec.ofNat 32 bs.length }

/-- `s` with the host about to do `a`. -/
def hostNext (s : State) (a : HostAccess) : State := { s with hostProg := [a], hostPos := 0 }

/-- The frame "TIT2" with flags AB CD, payload 01 02 03 and term 7 (FR-12). -/
def tit2 : Frame := { id := ⟨0x54, 0x49, 0x54, 0x32⟩, flags := ⟨0xAB, 0xCD⟩, data := [1, 2, 3], term := 7 }

/-- A store of that one frame. -/
def stored : State := { State.reset with frames := [tit2] }

/-- The bytes of FR-1. -/
def fr1 : List Byte := [0x54, 0x49, 0x54, 0x32, 0, 0, 0, 2, 0, 0, 0, 0x41]

/-- A tag header of version 3.0 with the given flags byte and size below 128. -/
def header (flags size : Byte) : List Byte := [0x49, 0x44, 0x33, 3, 0, flags, 0, 0, 0, size]

/-- An extended header without CRC (TRD-9), and one with CRC (TRD-11). -/
def extPlain : List Byte := [0, 0, 0, 6, 0, 0, 0, 0, 0, 0]
def extCrc : List Byte := [0, 0, 0, 10, 0x80, 0, 0, 0, 0, 0, 0xDE, 0xAD, 0xBE, 0xEF]

/-- Tags of the frame of FR-1: bare, with 5 and with 10 bytes of padding, with each form of extended header. -/
def tagBare : State := loaded (header 0 12 ++ fr1)
def tagPad5 : State := loaded (header 0 17 ++ fr1 ++ [0, 0, 0, 0, 0])
def tagPad10 : State := loaded (header 0 22 ++ fr1 ++ [0, 0, 0, 0, 0, 0, 0, 0, 0, 0])
def tagExt : State := loaded (header 0x40 22 ++ extPlain ++ fr1)
def tagCrc : State := loaded (header 0x40 26 ++ extCrc ++ fr1)

/-- The record FRD and TRD store for those bytes. -/
def fr1Frame : Frame := { id := ⟨0x54, 0x49, 0x54, 0x32⟩, flags := ⟨0, 0⟩, data := [0, 0x41], term := 0 }

/-! ### Well-formedness and decoding -/

theorem test_wellFormed_refuses_wide_fwr : ¬ (Instr.fwr (2 ^ 24)).WellFormed := by decide
theorem test_wellFormed_refuses_wide_cls : ¬ (Instr.cls (2 ^ 24)).WellFormed := by decide
theorem test_wellFormed_admits_widest : (Instr.fwr (2 ^ 24 - 1)).WellFormed ∧ (Instr.cls (2 ^ 24 - 1)).WellFormed := by decide

theorem test_decode_ssdec : decode 0x00000001 = .ok .ssdec := rfl
theorem test_decode_ssenc : decode 0x00000002 = .ok .ssenc := rfl
theorem test_decode_frd : decode 0x00000003 = .ok .frd := rfl
theorem test_decode_fwr : decode 0x00000104 = .ok (.fwr 1) ∧ decode 0xFFFFFF04 = .ok (.fwr 0xFFFFFF) := ⟨rfl, rfl⟩
theorem test_decode_trd : decode 0x00000005 = .ok .trd := rfl
theorem test_decode_twr : decode 0x00000006 = .ok .twr := rfl
theorem test_decode_cls : decode 0x00000107 = .ok (.cls 1) ∧ decode 0x12345607 = .ok (.cls 0x123456) := ⟨rfl, rfl⟩
theorem test_decode_tclr : decode 0x00000008 = .ok .tclr := rfl

/-- L2-IC: the reserved opcodes and the operand where none is taken. -/
theorem test_decode_rejects :
    decode 0x00000000 = .error .reservedOpcode ∧ decode 0x00000009 = .error .reservedOpcode ∧
      decode 0x000000FF = .error .reservedOpcode ∧ decode 0x12345600 = .error .reservedOpcode ∧
      decode 0x00000101 = .error .nonZeroOperand ∧ decode 0xFFFFFF05 = .error .nonZeroOperand ∧
      decode 0x00000108 = .error .nonZeroOperand := ⟨rfl, rfl, rfl, rfl, rfl, rfl, rfl⟩

/-- FWR 1 assembles to (1 << 8) | 0x04 (30_encoding.md R97). -/
theorem test_encode_fwr : encode (.fwr 1) = 0x00000104 := rfl

/-- A table word placed by withFetchWord runs as the next step. -/
theorem test_fetch_word : decodeTableWord 32 0x00000006 = some .twr ∧
    (after (step (State.reset.withFetchWord 32 0x00000006))).map (·.outLen) = some 10 := ⟨rfl, rfl⟩

/-! ### One command each -/

/-- SS-12, SS-18. -/
theorem test_ssdec_value : (after (exec .ssdec { State.reset with arg0 := 0x00000216 })).map (fun t => (t.res0, t.res1)) =
    some (278, 0) := rfl
theorem test_ssdec_top_bits : (after (exec .ssdec { State.reset with arg0 := 0x80000000 })).map (fun t => (t.res0, t.res1)) =
    some (0, 8) := rfl

/-- SS-6, SS-9. -/
theorem test_ssenc_value : (after (exec .ssenc { State.reset with arg0 := 1000 })).map (fun t => (t.res0, t.res1)) =
    some (0x00000768, 0) := rfl
theorem test_ssenc_range : (after (exec .ssenc { State.reset with arg0 := 0x10000000 })).map (fun t => (t.res0, t.readReg 1)) =
    some (0x10000000, 0x24) := rfl

/-- FR-1, FR-4. -/
theorem test_frd_stores : (after (exec .frd (loaded fr1))).map (fun t => (t.frames, t.rptr, t.res0, t.res1)) =
    some ([fr1Frame], 12, 0, 2) := rfl
theorem test_frd_truncated :
    (after (exec .frd (loaded [0x54, 0x49, 0x54, 0x32, 0, 0, 0, 5, 0, 0, 0x41, 0x42]))).map
      (fun t => (t.status.err, t.res0, t.res1, t.frames.length)) = some (3, 10, 5, 0) := rfl

/-- FR-12, FR-10. -/
theorem test_fwr_writes : (after (exec (.fwr 0) stored)).map (fun t => (t.outMem, t.outLen)) =
    some ([(0, 0x54), (1, 0x49), (2, 0x54), (3, 0x32), (4, 0), (5, 0), (6, 0), (7, 3), (8, 0xAB), (9, 0xCD), (10, 1), (11, 2), (12, 3)],
      13) := rfl
theorem test_fwr_capacity :
    (after (exec (.fwr 0) { stored with frames := [fr1Frame], cfg := params 16 16 16 16, outLen := 10 })).map
      (fun t => (t.status.err, t.res0, t.res1, t.outLen)) = some (6, 3, 22, 10) := rfl

/-- TRD-11, TRD-6, for the frame of FR-1. -/
theorem test_trd_crc : (after (exec .trd tagCrc)).map (fun t => (t.frames, t.rptr, t.readReg 13, t.extCrc, t.res0, t.res1)) =
    some ([fr1Frame], 36, 0x00018000, 0xDEADBEEF, 36, 26) := rfl
theorem test_trd_short_tail : (after (exec .trd (loaded (header 0 17 ++ fr1 ++ [0x41, 0x42, 0x43, 0x44, 0x45])))).map
    (fun t => (t.status.err, t.res0, t.res1, t.frames)) = some (2, 22, 10, []) := rfl

/-- TW-1, TW-3. -/
theorem test_twr_after_reset : (after (exec .twr State.reset)).map (fun t => (t.outMem.map (·.2), t.res0, t.res1)) =
    some ([0x49, 0x44, 0x33, 0, 0, 0, 0, 0, 0, 0], 10, 0) := rfl
theorem test_twr_round_trip : (runAll tagCrc [.trd, .twr]).map (fun t => t.outMem.map (·.2)) =
    some (header 0x40 26 ++ extCrc ++ fr1) := rfl

/-- CLS-3, CLS-19. -/
theorem test_cls_bom_run :
    (after (exec (.cls 0) { stored with frames := [{ tit2 with data := [0, 0x65, 0x6E, 0x67, 0, 0xFF, 0xFE, 0x41, 0, 0, 0], term := 0 }] })).map
      (fun t => (t.coutMem.map (·.2), t.res1)) = some ([0x0065, 0x006E, 0x0067, 0x0000, 0x0041], 3) := rfl
theorem test_cls_run_ends_at_null :
    (after (exec (.cls 0) { stored with frames := [{ tit2 with data := [0, 0xFF, 0xFE, 0x48, 0, 0, 0, 0x69, 0], term := 0 }] })).map
      (fun t => (t.coutMem.map (·.2), t.res1)) = some ([0x0048, 0x0069, 0x0000], 3) := rfl

/-- TW-9, IC-10: the store is empty after TCLR, so FWR 0 names no frame. -/
theorem test_tclr_empties : (after (exec .tclr { stored with hdrSize := 22, rptr := 7, status := { stored.status with paddet := true } })).map
    (fun t => (t.frames, t.hdrSize, t.rptr, t.readReg 1)) = some ([], 0, 7, 0) := rfl
theorem test_fwr_after_tclr : (runAll stored [.tclr, .fwr 0]).map (fun t => (t.readReg 1, t.res0, t.res1)) = some (0x25, 4, 2) := rfl

/-- REG-3, REG-4, REG-8. -/
theorem test_write_inLen : (after (step (hostNext { loaded fr1 with rptr := 10 } (.writeReg 6 4)))).map (fun t => (t.inLen, t.rptr)) =
    some (4, 4) := rfl
theorem test_write_outLen : (after (step (hostNext { State.reset with outLen := 12 } (.writeReg 7 20)))).map (·.outLen) = some 12 := rfl
theorem test_write_hdr0 : (after (step (hostNext State.reset (.writeReg 10 0xFFFFFFFF)))).map (·.readReg 10) = some 0x00FFFFFF := rfl

/-- LOADIN, CLROUT and ISSUE as 30_encoding.md R98 expands them. -/
theorem test_pseudo_operations : loadIn 5 [0xAA, 0xBB] = [.writeIn 5 0xAA, .writeIn 6 0xBB, .writeReg 6 7] ∧
    clrOut = [.writeReg 7 0] ∧ issueCmd (.cls 1) = [.writeReg 0 0x00000107] := ⟨rfl, rfl, rfl⟩

/-! ### Witnesses: each meets the hypotheses its statement has, clause by clause -/

theorem aboutToIssue_hostNext {s : State} (w : Word) (h : s.status.busy = false) :
    (hostNext s (.writeReg 0 w)).AboutToIssue w := ⟨h, rfl⟩

theorem default_wf : Config.default.Wf := by constructor <;> decide

theorem reset_inv : State.reset.Inv where
  cfg_wf := default_wf
  lengths := by constructor <;> decide
  store := ⟨by decide, fun _ h => nomatch h⟩
  memories := ⟨Memory.wf_nil, Memory.wf_nil, Memory.wf_nil, Memory.below_nil _, Memory.below_nil _, Memory.below_nil _,
    Memory.filled_zero _, Memory.filled_zero _⟩
  idle := rfl
  err_le := by decide

theorem witness_EncodedCommandsDecodeBack : (Instr.fwr (2 ^ 24 - 1)).WellFormed ∧ (Instr.cls 0).WellFormed ∧ Instr.trd.WellFormed := by
  decide

theorem witness_DecodedWordsEncodeBack : decode 0xFFFFFF04 = .ok (.fwr 0xFFFFFF) ∧ decode 0x00000008 = .ok .tclr := ⟨rfl, rfl⟩

/-- The word fields of each clause, for a word issued from `stored`, whose N is 1. -/
theorem witness_EveryCommandWordFollowsDecodeProcedure :
    (∀ w : Word, (hostNext stored (.writeReg 0 w)).AboutToIssue w) ∧
      (∀ op ∈ [1, 2, 3, 5, 6, 8], (byteOf (BitVec.ofNat 32 op) 0).toNat = op ∧ (BitVec.ofNat 32 op).toNat >>> 8 = 0) ∧
      ((byteOf 0x04 0).toNat = 0x04 ∧ (0x04 : Word).toNat >>> 8 < stored.frames.length) ∧
      ((byteOf 0x07 0).toNat = 0x07 ∧ (0x07 : Word).toNat >>> 8 < stored.frames.length) ∧
      ((byteOf 0x104 0).toNat = 0x04 ∧ stored.frames.length ≤ (0x104 : Word).toNat >>> 8) ∧
      ((byteOf 0x107 0).toNat = 0x07 ∧ stored.frames.length ≤ (0x107 : Word).toNat >>> 8) ∧
      (∀ op ∈ [1, 2, 3, 5, 6, 8],
        (byteOf (BitVec.ofNat 32 (256 + op)) 0).toNat = op ∧ (BitVec.ofNat 32 (256 + op)).toNat >>> 8 ≠ 0) ∧
      (byteOf 0x12345600 0).toNat = 0x00 ∧ 0x09 ≤ (byteOf 0x09 0).toNat :=
  ⟨fun w => aboutToIssue_hostNext w rfl, by decide, by decide, by decide, by decide, by decide, by decide, by decide, by decide⟩

theorem witness_StepRunsTheDecodedCommand :
    (hostNext stored (.writeReg 0 0x04)).AboutToIssue 0x04 ∧ decode 0x04 = .ok (.fwr 0) := ⟨aboutToIssue_hostNext _ rfl, rfl⟩

theorem witness_CmdHoldsTheLastWordWritten :
    (hostNext stored (.writeReg 0 0x09)).AboutToIssue 0x09 ∧ (∃ t, step (hostNext stored (.writeReg 0 0x09)) = .next t) ∧
      ∃ t, exec .twr stored = .next t := ⟨aboutToIssue_hostNext _ rfl, ⟨_, rfl⟩, _, rfl⟩

/-- The words of the decode-error clauses of SSDEC, SSENC, FRD, TWR and TCLR, and of the frame-index clauses of FWR and CLS. -/
theorem witness_decode_error_clauses :
    (∀ w : Word, (hostNext stored (.writeReg 0 w)).AboutToIssue w) ∧
      (byteOf 0x101 0 = 0x01 ∧ (0x101 : Word).toNat >>> 8 ≠ 0) ∧ (byteOf 0x102 0 = 0x02 ∧ (0x102 : Word).toNat >>> 8 ≠ 0) ∧
      (byteOf 0x103 0 = 0x03 ∧ (0x103 : Word).toNat >>> 8 ≠ 0) ∧ (byteOf 0x106 0 = 0x06 ∧ (0x106 : Word).toNat >>> 8 ≠ 0) ∧
      (byteOf 0x108 0 = 0x08 ∧ (0x108 : Word).toNat >>> 8 ≠ 0) ∧
      (byteOf 0x104 0 = 0x04 ∧ stored.frames.length ≤ (0x104 : Word).toNat >>> 8) ∧
      (byteOf 0x107 0 = 0x07 ∧ stored.frames.length ≤ (0x107 : Word).toNat >>> 8) :=
  ⟨fun w => aboutToIssue_hostNext w rfl, by decide, by decide, by decide, by decide, by decide, by decide, by decide⟩

theorem witness_SsdecDecodesArg0 : (hostNext stored (.writeReg 0 0x101)).AboutToIssue 0x101 ∧ byteOf 0x101 0 = 0x01 ∧
    (0x101 : Word).toNat >>> 8 ≠ 0 := ⟨aboutToIssue_hostNext _ rfl, by decide, by decide⟩

theorem witness_SsencEncodesArg0 :
    ({ State.reset with arg0 := 0x0FFFFFFF } : State).arg0.toNat < 2 ^ 28 ∧
      2 ^ 28 ≤ ({ State.reset with arg0 := 0x10000000 } : State).arg0.toNat ∧
      (hostNext stored (.writeReg 0 0x102)).AboutToIssue 0x102 ∧ byteOf 0x102 0 = 0x02 ∧ (0x102 : Word).toNat >>> 8 ≠ 0 :=
  ⟨by decide, by decide, aboutToIssue_hostNext _ rfl, by decide, by decide⟩

theorem witness_SynchsafeRoundTripThroughRegisters :
    2 ^ 28 - 1 < 2 ^ 28 ∧ ({ State.reset with arg0 := 0x0FFFFFFF } : State).arg0.toNat < 2 ^ 28 := by decide

theorem witness_DecodedSizesStayBelow28Bits :
    (∃ t, exec .ssdec { State.reset with arg0 := 0xFFFFFFFF } = .next t) ∧ ∃ t, exec .trd tagBare = .next t ∧ t.status.err = 0 :=
  ⟨⟨_, rfl⟩, _, rfl, rfl⟩

/-- The good frame ends at IN_LEN, fills MAX_FRAMES and MAX_PAYLOAD; each error clause is one short of it. -/
theorem witness_FrdAppendsTheFrameAtRptr :
    (let s : State := { loaded fr1 with cfg := params 64 64 1 2 };
      s.rptr.toNat + 10 + sizeIn s s.rptr.toNat = s.inLen.toNat ∧ s.frames.length < s.cfg.maxFrames ∧
        sizeIn s s.rptr.toNat ≤ s.cfg.maxPayload) ∧
    (let s : State := loaded (fr1.take 9);
      s.inLen.toNat + 1 = s.rptr.toNat + 10) ∧
    (let s : State := loaded (fr1.take 11);
      s.rptr.toNat + 10 ≤ s.inLen.toNat ∧ s.inLen.toNat < s.rptr.toNat + 10 + sizeIn s s.rptr.toNat) ∧
    (let s : State := { loaded fr1 with cfg := params 64 64 1 2, frames := [tit2] };
      s.rptr.toNat + 10 + sizeIn s s.rptr.toNat ≤ s.inLen.toNat ∧ s.cfg.maxFrames = s.frames.length) ∧
    (let s : State := { loaded fr1 with cfg := params 64 64 1 1 };
      s.rptr.toNat + 10 + sizeIn s s.rptr.toNat ≤ s.inLen.toNat ∧ s.frames.length < s.cfg.maxFrames ∧
        s.cfg.maxPayload < sizeIn s s.rptr.toNat) ∧
    byteOf 0x103 0 = 0x03 ∧ (0x103 : Word).toNat >>> 8 ≠ 0 := by decide

theorem witness_FwrAppendsTheFrameBytes :
    (2 ^ 24 - 1 < 2 ^ 24) ∧
    (let s : State := { stored with cfg := params 13 64 1 16 };
      s.frames[0]? = some tit2 ∧ s.outLen.toNat + (10 + tit2.data.length) = s.cfg.outCap) ∧
    (let s : State := { stored with cfg := params 12 64 1 16 };
      s.frames[0]? = some tit2 ∧ s.cfg.outCap < s.outLen.toNat + (10 + tit2.data.length)) ∧
    byteOf 0x104 0 = 0x04 ∧ stored.frames.length ≤ (0x104 : Word).toNat >>> 8 := by decide

theorem witness_FrameReadIsWrittenBackByteForByte :
    (let s : State := { loaded fr1 with cfg := params 12 64 1 2 };
      s.rptr.toNat + (10 + sizeIn s s.rptr.toNat) ≤ s.inLen.toNat ∧ s.frames.length < s.cfg.maxFrames ∧
        sizeIn s s.rptr.toNat ≤ s.cfg.maxPayload ∧ s.outLen.toNat + (10 + sizeIn s s.rptr.toNat) ≤ s.cfg.outCap) ∧
    (params 12 64 1 2).Wf := ⟨by decide, by constructor <;> decide⟩

theorem witness_TrdReportsNotATagExactlyWithoutSignature :
    (¬ HasTagId (loaded [0x49, 0x44]) 0) ∧
    (∃ t, exec .trd (loaded [0xFF, 0xFB, 0x90, 0x64, 0]) = .next t ∧ t.status.err = 1) ∧
    (HasTagId (loaded ((header 0 0).take 9)) 0 ∧ (loaded ((header 0 0).take 9)).inLen.toNat < 10) :=
  ⟨fun h => absurd h.1 (by decide), ⟨_, rfl, rfl⟩, ⟨⟨by decide, by decide⟩, by decide⟩⟩

/-- Tags with the extended-header flag: size 9, a stream cut before byte 20, size 13 with the CRC bit, a stream cut before byte 24. -/
theorem witness_TrdExtendedHeaderErrors :
    (let s := loaded (header 0x40 9 ++ extPlain);
      HasHeader s 0 ∧ ExtFlag s 0 ∧ tagSize s 0 < 10) ∧
    (let s := loaded (header 0x40 10 ++ extPlain.take 9);
      HasHeader s 0 ∧ ExtFlag s 0 ∧ 10 ≤ tagSize s 0 ∧ s.inLen.toNat < 0 + 20) ∧
    (let s := loaded (header 0x40 13 ++ extCrc);
      HasHeader s 0 ∧ ExtFlag s 0 ∧ 10 ≤ tagSize s 0 ∧ 0 + 20 ≤ s.inLen.toNat ∧ ExtCrcBit s 0 ∧ tagSize s 0 < 14) ∧
    (let s := loaded (header 0x40 14 ++ extCrc.take 13);
      HasHeader s 0 ∧ ExtFlag s 0 ∧ 14 ≤ tagSize s 0 ∧ 0 + 20 ≤ s.inLen.toNat ∧ ExtCrcBit s 0 ∧ s.inLen.toNat < 0 + 24) :=
  ⟨⟨⟨⟨by decide, by decide⟩, by decide⟩, by decide, by decide⟩,
    ⟨⟨⟨by decide, by decide⟩, by decide⟩, by decide, by decide, by decide⟩,
    ⟨⟨⟨by decide, by decide⟩, by decide⟩, by decide, by decide, by decide, by decide, by decide⟩,
    ⟨⟨⟨by decide, by decide⟩, by decide⟩, by decide, by decide, by decide, by decide, by decide⟩⟩

theorem tagAt_bare : TagAt tagBare 0 [fr1Frame] 0 where
  header := ⟨⟨by decide, by decide⟩, by decide⟩
  ext := fun h => absurd h (by decide)
  frames := ⟨by decide, by decide, by decide, by decide, by decide, trivial⟩
  size := by decide
  padding := fun h => absurd h (by decide)

theorem tagAt_pad5 : TagAt tagPad5 0 [fr1Frame] 5 where
  header := ⟨⟨by decide, by decide⟩, by decide⟩
  ext := fun h => absurd h (by decide)
  frames := ⟨by decide, by decide, by decide, by decide, by decide, trivial⟩
  size := by decide
  padding := fun _ => ⟨by decide, by decide⟩

theorem tagAt_pad10 : TagAt tagPad10 0 [fr1Frame] 10 where
  header := ⟨⟨by decide, by decide⟩, by decide⟩
  ext := fun h => absurd h (by decide)
  frames := ⟨by decide, by decide, by decide, by decide, by decide, trivial⟩
  size := by decide
  padding := fun _ => ⟨by decide, by decide⟩

theorem tagAt_ext : TagAt tagExt 0 [fr1Frame] 0 where
  header := ⟨⟨by decide, by decide⟩, by decide⟩
  ext := fun _ => ⟨by decide, by decide⟩
  frames := ⟨by decide, by decide, by decide, by decide, by decide, trivial⟩
  size := by decide
  padding := fun h => absurd h (by decide)

theorem tagAt_crc : TagAt tagCrc 0 [fr1Frame] 0 where
  header := ⟨⟨by decide, by decide⟩, by decide⟩
  ext := fun _ => ⟨by decide, by decide⟩
  frames := ⟨by decide, by decide, by decide, by decide, by decide, trivial⟩
  size := by decide
  padding := fun h => absurd h (by decide)

theorem witness_TrdReadsEveryLaidOutTag :
    TagAt tagBare tagBare.rptr.toNat [fr1Frame] 0 ∧ TagAt tagPad5 tagPad5.rptr.toNat [fr1Frame] 5 ∧
      TagAt tagPad10 tagPad10.rptr.toNat [fr1Frame] 10 ∧ TagAt tagExt tagExt.rptr.toNat [fr1Frame] 0 ∧
      TagAt tagCrc tagCrc.rptr.toNat [fr1Frame] 0 := ⟨tagAt_bare, tagAt_pad5, tagAt_pad10, tagAt_ext, tagAt_crc⟩

theorem witness_TrdAcceptsOnlyLaidOutTags : ∃ t, exec .trd tagPad5 = .next t ∧ t.status.err = 0 := ⟨_, rfl, rfl⟩

/-- The common hypotheses of the frame-loop errors, at the good frame `fr1` and what follows it. -/
def LoopAt (s : State) : Prop :=
  HasHeader s s.rptr.toNat ∧ ExtFits s s.rptr.toNat ∧ FramesAt s (s.rptr.toNat + 10 + extLen s s.rptr.toNat) 0 [fr1Frame] ∧
    extLen s s.rptr.toNat + extent [fr1Frame] < tagSize s s.rptr.toNat

/-- What is left of the declared size after `fr1`. -/
def left (s : State) : Nat := tagSize s s.rptr.toNat - extLen s s.rptr.toNat - extent [fr1Frame]

/-- The address after `fr1`. -/
def next (s : State) : Nat := framesEnd s s.rptr.toNat [fr1Frame]

theorem witness_TrdFrameLoopErrors :
    (let s := loaded (header 0 21 ++ fr1 ++ [0, 0, 0]);
      LoopAt s ∧ left s < 10 ∧ s.inLen.toNat < next s + min 4 (left s)) ∧
    (let s := loaded (header 0 13 ++ fr1 ++ [1]);
      LoopAt s ∧ left s < 10 ∧ next s + min 4 (left s) ≤ s.inLen.toNat ∧ ∃ j < min 4 (left s), s.inByte (next s + j) ≠ 0) ∧
    (let s := loaded (header 0 22 ++ fr1 ++ fr1.take 9);
      LoopAt s ∧ 10 ≤ left s ∧ s.inLen.toNat < next s + 10) ∧
    (let s := loaded (header 0 23 ++ fr1 ++ fr1);
      LoopAt s ∧ 10 ≤ left s ∧ next s + 10 ≤ s.inLen.toNat ∧ inBytes s (next s) 4 ≠ [0, 0, 0, 0] ∧
        left s < 10 + sizeIn s (next s)) ∧
    (let s := loaded (header 0 24 ++ fr1 ++ fr1.take 11);
      LoopAt s ∧ 10 ≤ left s ∧ next s + 10 ≤ s.inLen.toNat ∧ inBytes s (next s) 4 ≠ [0, 0, 0, 0] ∧
        10 + sizeIn s (next s) ≤ left s ∧ s.inLen.toNat < next s + 10 + sizeIn s (next s)) ∧
    (let s : State := { loaded (header 0 24 ++ fr1 ++ fr1) with cfg := params 64 64 1 2 };
      LoopAt s ∧ 10 ≤ left s ∧ next s + 10 ≤ s.inLen.toNat ∧ inBytes s (next s) 4 ≠ [0, 0, 0, 0] ∧
        10 + sizeIn s (next s) ≤ left s ∧ next s + 10 + sizeIn s (next s) ≤ s.inLen.toNat ∧ s.cfg.maxFrames ≤ [fr1Frame].length) ∧
    (let s : State := { loaded (header 0 25 ++ fr1 ++ [0x54, 0x50, 0x45, 0x31, 0, 0, 0, 3, 0, 0, 1, 2, 3]) with cfg := params 64 64 2 2 };
      LoopAt s ∧ 10 ≤ left s ∧ next s + 10 ≤ s.inLen.toNat ∧ inBytes s (next s) 4 ≠ [0, 0, 0, 0] ∧
        10 + sizeIn s (next s) ≤ left s ∧ next s + 10 + sizeIn s (next s) ≤ s.inLen.toNat ∧
        [fr1Frame].length < s.cfg.maxFrames ∧ s.cfg.maxPayload < sizeIn s (next s)) := by
  refine ⟨⟨?_, by decide⟩, ⟨?_, by decide, by decide, 0, by decide, by decide⟩, ⟨?_, by decide⟩, ⟨?_, by decide⟩, ⟨?_, by decide⟩,
    ⟨?_, by decide⟩, ⟨?_, by decide⟩⟩
  all_goals
    exact ⟨⟨⟨by decide, by decide⟩, by decide⟩, fun h => absurd h (by decide),
      ⟨by decide, by decide, by decide, by decide, by decide, trivial⟩, by decide⟩

theorem witness_TagSizeIsFramesPlusPadding :
    (∃ t, exec .trd tagPad10 = .next t ∧ t.status.err = 0 ∧ t.extCtrl.present = false) ∧
      ∃ t, exec .trd tagCrc = .next t ∧ t.status.err = 0 ∧ t.extCtrl.present = true := ⟨⟨_, rfl, rfl, rfl⟩, _, rfl, rfl, rfl⟩

theorem witness_FramesFromTrdNeverTakeRuleFour :
    ∃ t, exec .trd tagBare = .next t ∧ t.status.err = 0 ∧ ∃ u, exec (.cls 0) t = .next u ∧ u.status.err = 0 :=
  ⟨_, rfl, rfl, _, rfl, rfl⟩

theorem witness_TagReadIsWrittenBackByteForByte :
    tagCrc.cfg.Wf ∧ ∃ t, exec .trd tagCrc = .next t ∧ t.status.err = 0 ∧ t.status.paddet = false ∧
      (∀ j, j < 4 → (tagCrc.inByte (tagCrc.rptr.toNat + 6 + j)).getLsbD 7 = false) ∧
      tagCrc.outLen.toNat + (10 + t.hdrSize.toNat) ≤ tagCrc.cfg.outCap :=
  ⟨default_wf, _, rfl, rfl, rfl, by decide, by decide⟩

theorem witness_TwrAppendsTheTagBytes :
    (let s : State := { State.reset with hdrSize := 0x0FFFFFFF, cfg := params 10 64 1 1 };
      s.hdrSize.toNat < 2 ^ 28 ∧ s.outLen.toNat + (tagBytes s).length ≤ s.cfg.outCap) ∧
    2 ^ 28 ≤ ({ State.reset with hdrSize := 0x10000000 } : State).hdrSize.toNat ∧
    (let s : State := { State.reset with cfg := params 9 64 1 1 };
      s.hdrSize.toNat < 2 ^ 28 ∧ s.cfg.outCap < s.outLen.toNat + (tagBytes s).length) ∧
    byteOf 0x106 0 = 0x06 ∧ (0x106 : Word).toNat >>> 8 ≠ 0 := by decide

theorem witness_TwrWritesSizeWithTopBitsClear :
    (∃ t, exec .twr { State.reset with hdrSize := 0x0FFFFFFF } = .next t ∧ t.status.err = 0) ∧ (6 ≤ 6 ∧ 6 < 10) ∧ (6 ≤ 9 ∧ 9 < 10) :=
  ⟨⟨_, rfl, rfl⟩, by decide, by decide⟩

theorem witness_PaddedTagIsWrittenShorterThanDeclared :
    ∃ t, exec .trd tagPad5 = .next t ∧ t.status.err = 0 ∧ t.status.paddet = true ∧ ∃ u, exec .twr t = .next u ∧ u.status.err = 0 :=
  ⟨_, rfl, rfl, rfl, _, rfl, rfl⟩

theorem witness_TclrEmptiesTheStore : (hostNext stored (.writeReg 0 0x108)).AboutToIssue 0x108 ∧ byteOf 0x108 0 = 0x08 ∧
    (0x108 : Word).toNat >>> 8 ≠ 0 := ⟨aboutToIssue_hostNext _ rfl, by decide, by decide⟩

theorem witness_ClsFollowsThePseudocode :
    (2 ^ 24 - 1 < 2 ^ 24) ∧
    (let s : State := { stored with cfg := params 64 3 1 16 };
      s.frames[0]? = some tit2 ∧ (classify s.cfg.apicPlaceholder tit2).1.length ≤ s.cfg.coutCap) ∧
    (let s : State := { stored with cfg := params 64 2 1 16 };
      s.frames[0]? = some tit2 ∧ s.cfg.coutCap < (classify s.cfg.apicPlaceholder tit2).1.length) ∧
    byteOf 0x107 0 = 0x07 ∧ stored.frames.length ≤ (0x107 : Word).toNat >>> 8 := by decide

theorem witness_ClsWritesOnlyItsOutput : (∃ t, exec (.cls 0) stored = .next t) ∧ ∃ t, exec (.cls 1) stored = .next t :=
  ⟨⟨_, rfl⟩, _, rfl⟩

/-- One frame of `data` and term 0 in the store. -/
def text (data : List Byte) : State := { stored with frames := [{ tit2 with data := data, term := 0 }] }

/-- CLS 0 on that frame ends without an error. -/
def Rendered (data : List Byte) : Prop :=
  (text data).frames[0]? = some { tit2 with data := data, term := 0 } ∧ ∃ t, exec (.cls 0) (text data) = .next t ∧ t.status.err = 0

/-- Bare markers, a run of one unit and a tail, and an empty run with an empty tail. -/
theorem witness_LegacyMarkerAndBomScanDifferAtNullUnits :
    tit2.id ≠ ⟨0x41, 0x50, 0x49, 0x43⟩ ∧ (∀ x ∈ [((0x48 : Byte), (0x00 : Byte))], ¬ (x.1 = 0 ∧ x.2 = 0)) ∧
      Rendered [0x01, 0xFF, 0xFE] ∧ Rendered [0x00, 0xFF, 0xFE] ∧ Rendered [0xFF, 0xFE] ∧
      Rendered ([0x01, 0xFF, 0xFE] ++ [((0x48 : Byte), (0x00 : Byte))].flatMap (fun x => [x.1, x.2]) ++ [0, 0] ++ [0x69, 0]) ∧
      Rendered ([0x00, 0xFF, 0xFE] ++ [((0x48 : Byte), (0x00 : Byte))].flatMap (fun x => [x.1, x.2]) ++ [0, 0] ++ [0x69, 0]) ∧
      Rendered ([0xFF, 0xFE] ++ ([] : List (Byte × Byte)).flatMap (fun x => [x.1, x.2]) ++ [0, 0] ++ []) :=
  ⟨by decide, by simp, ⟨rfl, _, rfl, rfl⟩, ⟨rfl, _, rfl, rfl⟩, ⟨rfl, _, rfl, rfl⟩, ⟨rfl, _, rfl, rfl⟩, ⟨rfl, _, rfl, rfl⟩,
    ⟨rfl, _, rfl, rfl⟩⟩

theorem witness_FailingCommandsChangeNothingElse :
    (∃ t, exec .trd State.reset = .next t ∧ t.status.err ≠ 0) ∧ ∃ t, exec (.cls 1) stored = .next t ∧ t.status.err ≠ 0 :=
  ⟨⟨_, rfl, by decide⟩, _, rfl, by decide⟩

theorem witness_StatusFlagsFollowTheSummary :
    (∃ t, exec .frd State.reset = .next t ∧ t.status.err ≠ 0) ∧ (∃ t, exec .tclr stored = .next t) ∧
      (∃ t, exec .trd tagPad5 = .next t ∧ t.status.err = 0) ∧
      (hostNext stored (.writeReg 0 0x00)).AboutToIssue 0x00 ∧ byteOf 0x00 0 = 0 ∧
      (hostNext stored (.writeReg 0 0x09)).AboutToIssue 0x09 ∧ 9 ≤ (byteOf 0x09 0).toNat :=
  ⟨⟨_, rfl, by decide⟩, ⟨_, rfl⟩, ⟨_, rfl, rfl⟩, aboutToIssue_hostNext _ rfl, by decide, aboutToIssue_hostNext _ rfl, by decide⟩

theorem witness_OnlyResetClearsTheStickySummary :
    let s : State := hostNext { stored with status := { stored.status with errs := true } } (.writeReg 0 0x04)
    (∃ t, step s = .next t) ∧ s.status.errs = true ∧ s.nextAccess ≠ some .resetSignal := ⟨⟨_, rfl⟩, rfl, by decide⟩

theorem witness_CommandsNeverWriteInput : ∃ t, exec .trd tagBare = .next t := ⟨_, rfl⟩

/-- A listed cell at IN_LEN, which the second state has and the first has not. -/
theorem witness_InputBeyondItsLengthIsNeverRead :
    let m : List Host.Cell := Memory.set tagBare.inMem 22 0xFF
    m ≠ tagBare.inMem ∧ tagBare.inLen.toNat = 22 ∧
      (∀ a, a < tagBare.inLen.toNat → ({ tagBare with inMem := m, resets := 0 } : State).inByte a = tagBare.inByte a) ∧
      ∃ t, exec .trd tagBare = .next t :=
  ⟨by decide, by decide, by decide, _, rfl⟩

theorem witness_CommandsOnlyAppendToOutput :
    stored.cfg.Wf ∧ (∃ t, exec (.fwr 0) stored = .next t) ∧ 0 < ({ stored with outLen := 1 } : State).outLen.toNat :=
  ⟨default_wf, ⟨_, rfl⟩, by decide⟩

theorem witness_ClassifierOutputIsKeptUntilTheNextCls :
    (∃ t, exec .twr stored = .next t ∧ ∀ k, Instr.twr = .cls k → t.status.err ≠ 0) ∧
      ∃ t, exec (.cls 1) stored = .next t ∧ ∀ k, Instr.cls 1 = .cls k → t.status.err ≠ 0 :=
  ⟨⟨_, rfl, fun _ h => nomatch h⟩, _, rfl, fun _ _ => by decide⟩

theorem witness_EveryStepKeepsTheBlockSound : State.reset.Inv ∧ ∃ t, step State.reset = .next t := ⟨reset_inv, _, rfl⟩

theorem witness_TheBlockIsSoundAfterReset : Config.default.Wf := default_wf

theorem witness_NoStepChangesAParameter : ∃ t, step (hostNext stored .resetSignal) = .next t := ⟨_, rfl⟩

theorem witness_ResetSignalClearsTheBlock : (hostNext stored .resetSignal).nextAccess = some .resetSignal := rfl

theorem witness_CommandsRightAfterReset : 10 ≤ (params 10 64 1 1).outCap := by decide

theorem witness_HostWritesOfStreamRegistersAreClamped (v : Word) :
    stored.status.busy = false ∧ (hostNext stored (.writeReg 5 v)).nextAccess = some (.writeReg 5 v) ∧
      (hostNext stored (.writeReg 6 v)).nextAccess = some (.writeReg 6 v) ∧ stored.cfg.Wf ∧
      (hostNext stored (.writeReg 7 v)).nextAccess = some (.writeReg 7 v) := ⟨rfl, rfl, rfl, default_wf, rfl⟩

/-- The largest store R5 admits, 2^24 frames, is below the bound of the FCOUNT clause. -/
theorem witness_RegisterMapNamesTheRegisters : stored.frames.length < 2 ^ 32 ∧ 2 ^ 24 < 2 ^ 32 := by decide

theorem witness_HostReadsOfRegistersReturnTheRegister :
    ∀ n ∈ [0, 1, 9, 15, 16], stored.status.busy = false ∧ (hostNext stored (.readReg n)).nextAccess = some (.readReg n) := by decide

/-- Below IN_LEN, at IN_LEN and at IN_CAP - 1, with a second state that did the read once before. -/
theorem witness_HostReadsOfInputAreIdempotent :
    ∀ a ∈ [21, 22, 4095], (hostNext tagBare (.readIn a)).status.busy = false ∧
      (hostNext tagBare (.readIn a)).nextAccess = some (.readIn a) ∧ a < tagBare.cfg.inCap ∧
      ({ hostNext tagBare (.readIn a) with hostProg := [.readIn a, .readIn a], hostPos := 1 } : State).nextAccess =
        some (.readIn a) := by decide

theorem witness_ReservedRegisterNumbersReadZero :
    16 ≤ 16 ∧ stored.status.busy = false ∧ (hostNext stored (.readReg 16)).nextAccess = some (.readReg 16) ∧
      (hostNext stored (.writeReg 16 5)).nextAccess = some (.writeReg 16 5) := ⟨by decide, rfl, rfl, rfl⟩

theorem witness_ReadOnlyRegistersIgnoreHostWrites :
    ∀ n ∈ [1, 3, 4, 8, 9], (n = 1 ∨ n = 3 ∨ n = 4 ∨ n = 8 ∨ n = 9) ∧ stored.status.busy = false ∧
      (hostNext stored (.writeReg n 7)).nextAccess = some (.writeReg n 7) := by decide

theorem witness_HeaderRegistersReadBackWhatWasWritten :
    ∀ n ∈ [2, 10, 11, 12, 13, 14, 15], (n = 2 ∨ (10 ≤ n ∧ n ≤ 15)) ∧ stored.status.busy = false ∧
      (hostNext stored (.writeReg n 0xFFFFFFFF)).nextAccess = some (.writeReg n 0xFFFFFFFF) := by decide

/-- The three operations where they are allowed, and each way their conditions fail. -/
theorem witness_HostStoreOperations :
    let s : State := { stored with cfg := params 64 64 2 3 }
    let full : State := { stored with cfg := params 64 64 1 3 }
    s.status.busy = false ∧ s.frames[0]? = some tit2 ∧ 0 < s.frames.length ∧ tit2.data.length ≤ s.cfg.maxPayload ∧
      s.frames.length < s.cfg.maxFrames ∧ s.frames.length ≤ 1 ∧ full.cfg.maxFrames ≤ full.frames.length ∧
      ([1, 2, 3] : List Byte).length ≠ 4 ∧ ([1] : List Byte).length ≠ 2 ∧ s.cfg.maxPayload < ([1, 2, 3, 4] : List Byte).length ∧
      (hostNext s (.readFrame 0)).nextAccess = some (.readFrame 0) ∧
      (hostNext s (.writeFrame 0 tit2.id.toList tit2.flags.toList tit2.data 7)).nextAccess =
        some (.writeFrame 0 tit2.id.toList tit2.flags.toList tit2.data 7) ∧
      (hostNext s (.appendFrame tit2.id.toList tit2.flags.toList tit2.data 7)).nextAccess =
        some (.appendFrame tit2.id.toList tit2.flags.toList tit2.data 7) := by decide

theorem witness_HostAccessesOfInput :
    stored.status.busy = false ∧ 4095 < stored.cfg.inCap ∧ stored.cfg.inCap ≤ 4096 ∧
      (hostNext stored (.writeIn 4095 1)).nextAccess = some (.writeIn 4095 1) ∧
      (hostNext stored (.writeIn 4096 1)).nextAccess = some (.writeIn 4096 1) ∧
      21 < tagBare.inLen.toNat ∧ (hostNext tagBare (.readIn 21)).nextAccess = some (.readIn 21) ∧ tagBare.status.busy = false := by
  decide

theorem witness_HostReadsOfOutputs :
    let s : State := { stored with outMem := [(0, 9)], outLen := 1, coutMem := [(0, 9)], coutLen := 1 }
    s.status.busy = false ∧ 0 < s.outLen.toNat ∧ s.outByte? 0 = some 9 ∧ 0 < s.coutLen.toNat ∧ s.coutUnit? 0 = some 9 ∧
      (hostNext s (.readOut 0)).nextAccess = some (.readOut 0) ∧ (hostNext s (.readCout 0)).nextAccess = some (.readCout 0) := by decide

theorem witness_PseudoOperationsExpandToAccesses :
    stored.status.busy = false ∧ stored.cfg.Wf ∧ 4094 + ([1, 2] : List Byte).length = stored.cfg.inCap ∧ (Instr.fwr 0).WellFormed ∧
      ∃ t, exec (.fwr 0) { stored with cmd := encode (.fwr 0) } = .next t := ⟨rfl, default_wf, rfl, by decide, _, rfl⟩

theorem witness_NoHostAccessWhileBusy :
    let s : State := { stored with status := { stored.status with busy := true } }
    s.status.busy = true ∧ (hostNext s (.readReg 1)).nextAccess = some (.readReg 1) ∧ HostAccess.readReg 1 ≠ .resetSignal ∧
      (hostNext s .resetSignal).nextAccess = some .resetSignal := by decide

theorem witness_IdleBlockHoldsItsState : State.reset.nextAccess = none := rfl

theorem witness_BrerrBranchesOnTheErrorCode :
    stored.status.busy = false ∧ stored.status.err = 0 ∧ (hostNext stored (.brErr 7)).nextAccess = some (.brErr 7) ∧
      ({ stored with status := { stored.status with err := 1 } } : State).status.err ≠ 0 := by decide

end Sys2Proof.Tests
end

section
/-!
PROOFS. Host accesses of registers: what a step that reads or writes a register does, and the reserved register numbers (10_state.md R36).
-/

namespace Sys2Proof.Machine

/-- The register map ends at number 15: every number from 16 up reads 0. -/
theorem State.readReg_of_reserved (s : State) {n : Nat} (hn : 16 ≤ n) : s.readReg n = 0 := by
  obtain ⟨k, rfl⟩ := Nat.exists_eq_add_of_le' hn
  rfl

theorem State.writeReg_of_reserved (s : State) {n : Nat} (v : Word) (hn : 16 ≤ n) : s.writeReg n v = s := by
  obtain ⟨k, rfl⟩ := Nat.exists_eq_add_of_le' hn
  rfl

/-- The host's place is no register, so a read sees the registers of the state before the step. -/
@[simp] theorem State.readReg_advanceHost (s : State) (n : Nat) : s.advanceHost.readReg n = s.readReg n := rfl

theorem step_of_readReg {s : State} {n : Nat} (hb : s.status.busy = false) (h : s.nextAccess = some (.readReg n)) :
    step s = .next (s.advanceHost.hostSees (.word (s.readReg n))) := by
  rw [step_of_idle hb h, State.perform, State.readReg_advanceHost]

/-- A write of any register but CMD, which alone issues a command. -/
theorem step_of_writeReg {s : State} {n : Nat} {v : Word} (hb : s.status.busy = false) (hn : n ≠ 0)
    (h : s.nextAccess = some (.writeReg n v)) : step s = .next (s.advanceHost.writeReg n v) := by
  rw [step_of_idle hb h, State.perform, if_neg hn]

/-- Settles O48: the step of a register access, at a number the register map does not hold. -/
theorem reservedRegisterNumbersReadZero : Obligations.ReservedRegisterNumbersReadZero := by
  intro s n v hn hb
  constructor
  · intro h
    rw [step_of_readReg hb h, State.readReg_of_reserved s hn, State.hostSees]
  · intro h
    have hcmd : n ≠ 0 := by omega
    rw [step_of_writeReg hb hcmd h, State.writeReg_of_reserved _ v hn]

end Sys2Proof.Machine
end

section
/-!
PROOFS. The command word: what the decoder makes of each opcode (30_encoding.md R92 to R94), and the step of a word that the host is about to
write to CMD, for every word (R96).
-/

namespace Sys2Proof

/-- The commands whose operand is a frame index, checked against N (30_encoding.md R91); on the others OPND must be 0 (R93). -/
def Instr.takesIndex : Instr → Bool
  | .fwr _ => true
  | .cls _ => true
  | _ => false

/-- The word with the opcode and the operand of a command spells that command. -/
theorem decode_of_fields {w : Word} {i : Instr} (hop : opcodeField w = i.opcode) (hk : operandField w = i.operand) :
    decode w = .ok i := by
  rw [decode, hop, hk]
  cases i <;> rfl

theorem decode_of_nonZeroOperand {w : Word} {i : Instr} (hi : i.takesIndex = false) (hop : opcodeField w = i.opcode)
    (hk : operandField w ≠ 0) : decode w = .error .nonZeroOperand := by
  have hno : noOperand (operandField w) i = .error .nonZeroOperand := if_neg hk
  rw [decode, hop]
  cases i with
  | fwr k => cases hi
  | cls k => cases hi
  | _ => exact hno

theorem decode_of_reservedOpcode {w : Word} (h : opcodeField w = 0 ∨ 9 ≤ opcodeField w) : decode w = .error .reservedOpcode := by
  unfold decode
  split
  case h_9 => rfl
  all_goals omega

/-- The two fields make up the word, so a command with both has that word as its encoding. -/
theorem encode_of_fields {w : Word} {i : Instr} (hop : opcodeField w = i.opcode) (hk : operandField w = i.operand) :
    encode i = w := by
  have hw : 2 ^ 8 * operandField w + opcodeField w = w.toNat := Nat.div_add_mod _ _
  rw [encode, ← hop, ← hk, hw, BitVec.ofNat_toNat, BitVec.setWidth_eq]

end Sys2Proof

namespace Sys2Proof.Machine

open Sys2Proof.Spec

theorem byteOf_zero_toNat (w : Word) : (byteOf w 0).toNat = opcodeField w := by
  rw [byteOf_toNat, Nat.mul_zero, Nat.pow_zero, Nat.div_one]
  rfl

theorem toNat_shiftRight_eight (w : Word) : w.toNat >>> 8 = operandField w := Nat.shiftRight_eq_div_pow _ _

theorem raised_illegalCommand (s : State) (w : Word) (r : Nat) :
    raised s 5 w.toNat r = s.raise (.illegalCommand w r) := raised_eq_raise s (.illegalCommand w r)

/-- The frame index is the first thing FWR and CLS check. -/
theorem exec_of_index_ge {i : Instr} {s : State} (hi : i.takesIndex = true) (hN : s.frames.length ≤ i.operand) :
    exec i s = .next (s.raise (.illegalCommand (encode i) 2)) := by
  apply exec_of_staged_error
  cases i with
  | fwr k => exact State.withFrame_of_none hN _ _
  | cls k => exact State.withFrame_of_none hN _ _
  | _ => cases hi

section
variable {s : State} {w : Word}

theorem step_of_fields {i : Instr} (h : s.AboutToIssue w) (hop : opcodeField w = i.opcode) (hk : operandField w = i.operand) :
    step s = exec i (s.issued w) :=
  step_of_decode_ok h (decode_of_fields hop hk)

theorem step_of_index_ge {i : Instr} (h : s.AboutToIssue w) (hi : i.takesIndex = true) (hop : opcodeField w = i.opcode)
    (hk : operandField w = i.operand) (hN : s.frames.length ≤ i.operand) : step s = .next (raised (s.issued w) 5 w.toNat 2) := by
  rw [step_of_fields h hop hk, exec_of_index_ge hi (by exact hN), encode_of_fields hop hk, raised_illegalCommand]

theorem step_of_nonZeroOperand {i : Instr} (h : s.AboutToIssue w) (hi : i.takesIndex = false) (hop : opcodeField w = i.opcode)
    (hk : operandField w ≠ 0) : step s = .next (raised (s.issued w) 5 w.toNat 3) := by
  rw [step_of_decode_error h (decode_of_nonZeroOperand hi hop hk), raised_illegalCommand, DecodeReject.reason]

theorem step_of_reservedOpcode (h : s.AboutToIssue w) (hop : opcodeField w = 0 ∨ 9 ≤ opcodeField w) :
    step s = .next (raised (s.issued w) 5 w.toNat 1) := by
  rw [step_of_decode_error h (decode_of_reservedOpcode hop), raised_illegalCommand, DecodeReject.reason]

end

/-- Settles O3, by the word's two fields: they are a command's own, or the index, the operand or the opcode is illegal. -/
theorem everyCommandWordFollowsDecodeProcedure : Obligations.EveryCommandWordFollowsDecodeProcedure := by
  intro s w h
  rw [byteOf_zero_toNat, toNat_shiftRight_eight]
  refine ⟨fun ⟨hop, hk⟩ => step_of_fields h hop hk, fun ⟨hop, hk⟩ => step_of_fields h hop hk,
    fun ⟨hop, hk⟩ => step_of_fields h hop hk, fun ⟨hop, _⟩ => step_of_fields h hop rfl,
    fun ⟨hop, hk⟩ => step_of_fields h hop hk, fun ⟨hop, hk⟩ => step_of_fields h hop hk,
    fun ⟨hop, _⟩ => step_of_fields h hop rfl, fun ⟨hop, hk⟩ => step_of_fields h hop hk,
    fun ⟨hop, hN⟩ => ?index, fun ⟨hop, hk⟩ => ?operand, fun hop => step_of_reservedOpcode h hop⟩
  case index =>
    obtain hop | hop := hop
    · exact step_of_index_ge (i := .fwr _) h rfl hop rfl hN
    · exact step_of_index_ge (i := .cls _) h rfl hop rfl hN
  case operand =>
    obtain hop | hop | hop | hop | hop | hop := hop
    · exact step_of_nonZeroOperand (i := .ssdec) h rfl hop hk
    · exact step_of_nonZeroOperand (i := .ssenc) h rfl hop hk
    · exact step_of_nonZeroOperand (i := .frd) h rfl hop hk
    · exact step_of_nonZeroOperand (i := .trd) h rfl hop hk
    · exact step_of_nonZeroOperand (i := .twr) h rfl hop hk
    · exact step_of_nonZeroOperand (i := .tclr) h rfl hop hk

end Sys2Proof.Machine
end

section
/-!
PROOFS. The synchsafe commands: SSDEC and SSENC on ARG0 (40_synchsafe.md R121, R124), the round trip through the registers (R126) and the
bound on decoded sizes (R123).
-/

namespace Sys2Proof.Machine

open Sys2Proof.Spec

/-! ### The decode error, in the statements' terms -/

/-- `step_of_nonZeroOperand` for a word given by its low byte and the bits above it, as the statements give it. -/
theorem step_of_byteOf_nonZeroOperand {i : Instr} {s : State} {w : Word} (h : s.AboutToIssue w) (hi : i.takesIndex = false)
    (hop : (byteOf w 0).toNat = i.opcode) (hk : w.toNat >>> 8 ≠ 0) : step s = .next (raised (s.issued w) 5 w.toNat 3) := by
  rw [byteOf_zero_toNat] at hop
  rw [toNat_shiftRight_eight] at hk
  exact step_of_nonZeroOperand h hi hop hk

/-! ### The functions of R120 in bit operations -/

/-- Four bits side by side: no carry, so the sum of the weighted bits is their bitwise or. -/
theorem weighted_bits_eq_or (a b c d : Bool) :
    2 ^ 3 * a.toNat + 2 ^ 2 * b.toNat + 2 * c.toNat + d.toNat = a.toNat <<< 3 ||| b.toNat <<< 2 ||| c.toNat <<< 1 ||| d.toNat := by
  revert a b c d
  decide

theorem topBits_eq_or (b0 b1 b2 b3 : Byte) :
    topBits ⟨b0, b1, b2, b3⟩ =
      (b0.getLsbD 7).toNat <<< 3 ||| (b1.getLsbD 7).toNat <<< 2 ||| (b2.getLsbD 7).toNat <<< 1 ||| (b3.getLsbD 7).toNat := by
  simp only [topBits, topBit_eq]
  exact weighted_bits_eq_or _ _ _ _

theorem shiftRight_and_127 (x n : Nat) : (x >>> n) &&& 0x7F = x / 2 ^ n % 128 := by
  rw [Nat.shiftRight_eq_div_pow]
  exact Nat.and_two_pow_sub_one_eq_mod _ 7

/-- The encoded field as one number: the four 7-bit groups of `x`, each in a byte of its own. -/
theorem be32_ssEncode (x : Nat) :
    be32 (ssEncode x) =
      2 ^ 24 * ((x >>> 21) &&& 0x7F) + 2 ^ 16 * ((x >>> 14) &&& 0x7F) + 2 ^ 8 * ((x >>> 7) &&& 0x7F) + (x &&& 0x7F) := by
  have h0 : x &&& 0x7F = x % 128 := Nat.and_two_pow_sub_one_eq_mod _ 7
  simp only [be32, ssEncode_b0, ssEncode_b1, ssEncode_b2, ssEncode_b3, shiftRight_and_127, h0]

/-! ### What the two commands do -/

theorem exec_ssdec (s : State) :
    exec .ssdec s = .next ((s.setResults (ssDecode s.arg0Bytes) (topBits s.arg0Bytes)).commit) :=
  exec_of_staged_ok rfl

theorem exec_ssenc_of_lt {s : State} (h : s.arg0.toNat < 2 ^ 28) :
    exec .ssenc s = .next ((s.setResults (be32 (ssEncode s.arg0.toNat)) 0).commit) :=
  exec_of_staged_ok (State.ssencStaged_of_lt h)

theorem exec_ssenc_of_ge {s : State} (h : 2 ^ 28 ≤ s.arg0.toNat) :
    exec .ssenc s = .next (s.raise (.encodingRange s.arg0.toNat)) :=
  exec_of_staged_error (State.ssencStaged_of_ge h)

/-- Settles O7: SSDEC never fails once decoded, and its two results are R121's in bit operations. -/
theorem ssdecDecodesArg0 : Obligations.SsdecDecodesArg0 := by
  refine ⟨rfl, fun s => ?_, fun s w h hop hk => ?_⟩
  · have h := exec_ssdec s
    rw [State.arg0Bytes, unpack4_eq, topBits_eq_or, ← synchsafe_eq_ssDecode, ← succeeded_eq_commit] at h
    exact h
  · exact step_of_byteOf_nonZeroOperand (i := .ssdec) h rfl (congrArg BitVec.toNat hop) hk

/-- Settles O8, by R124's split of ARG0 at 2^28. -/
theorem ssencEncodesArg0 : Obligations.SsencEncodesArg0 := by
  refine ⟨rfl, fun s hx => ?_, fun s hx => ?_, fun s w h hop hk => ?_⟩
  · have h := exec_ssenc_of_lt hx
    rw [be32_ssEncode, ← succeeded_eq_commit] at h
    exact h
  · have h := exec_ssenc_of_ge hx
    rw [← raised_eq_raise] at h
    exact h
  · exact step_of_byteOf_nonZeroOperand (i := .ssenc) h rfl (congrArg BitVec.toNat hop) hk

/-! ### The round trip -/

/-- RES0 after SSENC, moved to ARG0, holds the four bytes of the encoded field. -/
theorem State.arg0Bytes_of_pack4 {s : State} {b : Bytes4} (h : s.arg0 = pack4 b) : s.arg0Bytes = b := by
  rw [State.arg0Bytes, h, unpack4_pack4]

theorem exec_ssdec_of_encoded {s : State} {x : Nat} (hx : x < 2 ^ 28) (h : s.arg0 = pack4 (ssEncode x)) :
    exec .ssdec s = .next ((s.setResults x 0).commit) := by
  rw [exec_ssdec, State.arg0Bytes_of_pack4 h, ssDecode_ssEncode hx, topBits_ssEncode]

/-- Settles O9: SSENC's RES0 is the encoded field, which SSDEC decodes to the value with no top bit set. -/
theorem synchsafeRoundTripThroughRegisters : Obligations.SynchsafeRoundTripThroughRegisters := by
  refine ⟨fun x => ssDecode_ssEncode, fun s hx => ?_⟩
  refine ⟨_, _, exec_ssenc_of_lt hx, exec_ssdec_of_encoded hx rfl, ?res0, rfl, rfl⟩
  case res0 => exact BitVec.ofNat_toNat 32 s.arg0

/-! ### The bound -/

/-- S, the size that TRD's header phase reads, is a synchsafe value (42_tag_codec.md R173). -/
theorem State.readTagHeader_size_lt {s : State} {p : Nat} {hd : TagHeader} (h : s.readTagHeader p = .ok hd) : hd.size < 2 ^ 28 := by
  unfold State.readTagHeader at h
  split at h
  · cases h
  · split at h
    · cases h
    · cases h
      exact ssDecode_lt _

/-- Settles O11: what the registers get is a value of ss_decode, and a register holds it whole. -/
theorem decodedSizesStayBelow28Bits : Obligations.DecodedSizesStayBelow28Bits := by
  refine ⟨fun b0 b1 b2 b3 => Nat.le_pred_of_lt (ssDecode_lt _), fun s t h => ?ssdec, fun s t h herr => ?trd⟩
  case ssdec =>
    obtain rfl := Host.Outcome.next.inj ((exec_ssdec s).symm.trans h)
    exact Nat.lt_of_le_of_lt (Nat.mod_le _ _) (ssDecode_lt _)
  case trd =>
    obtain ⟨u, hu, rfl⟩ := exec_success h herr
    obtain ⟨hd, x, b, hhd, -, -, rfl⟩ := State.trdStaged_ok hu
    exact Nat.lt_of_le_of_lt (Nat.mod_le _ _) (State.readTagHeader_size_lt hhd)

end Sys2Proof.Machine
end

section
/-!
PROOFS. The frame commands: FRD's five outcomes (41_frame_codec.md R141), FWR's three (R145), and the bytes of a frame read by the one and
written by the other (R147).
-/

namespace Sys2Proof.Machine

open Sys2Proof.Spec

/-! ### Words and errors, in the statements' terms -/

/-- `encode` with its fields put together by shift and or, as R97 writes it: the opcode stays clear of the operand's bits. -/
theorem encode_eq_shiftLeft_or (i : Instr) : encode i = BitVec.ofNat 32 (i.operand <<< 8 ||| i.opcode) := by
  have hop : i.opcode < 2 ^ 8 := by cases i <;> simp [Instr.opcode]
  rw [encode, ← Nat.shiftLeft_add_eq_or_of_lt hop, Nat.shiftLeft_eq, Nat.mul_comm]

/-- `step_of_index_ge` for a word given by its low byte and the bits above it, as the statements give it. -/
theorem step_of_byteOf_index_ge {i : Instr} {s : State} {w : Word} (h : s.AboutToIssue w) (hi : i.takesIndex = true)
    (hop : (byteOf w 0).toNat = i.opcode) (hk : w.toNat >>> 8 = i.operand) (hN : s.frames.length ≤ i.operand) :
    step s = .next (raised (s.issued w) 5 w.toNat 2) := by
  rw [byteOf_zero_toNat] at hop
  rw [toNat_shiftRight_eight] at hk
  exact step_of_index_ge h hi hop hk hN

/-- A command whose staged results are an error ends in the state R268 describes. -/
theorem exec_raised_of_staged_error {i : Instr} {s : State} {e : CmdError} (h : s.staged i = .error e) :
    exec i s = .next (raised s e.code e.info0 e.info1) := by
  rw [exec_of_staged_error h, raised_eq_raise]

/-! ### FRD, one lemma per outcome -/

section
variable {s : State}

theorem State.frdStaged_of_header_past_end (h : s.inLen.toNat < s.rptr.toNat + 10) :
    s.frdStaged = .error (.truncatedStream s.rptr.toNat 10) := if_pos h

theorem State.frdStaged_of_payload_past_end (hhead : s.rptr.toNat + 10 ≤ s.inLen.toNat)
    (h : s.inLen.toNat < s.rptr.toNat + 10 + s.frameSizeAt s.rptr.toNat) :
    s.frdStaged = .error (.truncatedStream (s.rptr.toNat + 10) (s.frameSizeAt s.rptr.toNat)) := by
  rw [State.frdStaged]
  exact (if_neg (by omega)).trans (if_pos h)

theorem State.frdStaged_of_store_full (h : s.rptr.toNat + 10 + s.frameSizeAt s.rptr.toNat ≤ s.inLen.toNat)
    (hN : s.cfg.maxFrames ≤ s.frames.length) : s.frdStaged = .error (.capacityExceeded 1 (s.frames.length + 1)) := by
  rw [State.frdStaged]
  exact (if_neg (by omega)).trans ((if_neg (by omega)).trans (if_pos hN))

theorem State.frdStaged_of_payload_too_long (h : s.rptr.toNat + 10 + s.frameSizeAt s.rptr.toNat ≤ s.inLen.toNat)
    (hN : s.frames.length < s.cfg.maxFrames) (hsz : s.cfg.maxPayload < s.frameSizeAt s.rptr.toNat) :
    s.frdStaged = .error (.capacityExceeded 2 (s.frameSizeAt s.rptr.toNat)) := by
  rw [State.frdStaged]
  exact (if_neg (by omega)).trans ((if_neg (by omega)).trans ((if_neg (by omega)).trans (if_pos hsz)))

theorem State.frdStaged_of_room (h : s.rptr.toNat + 10 + s.frameSizeAt s.rptr.toNat ≤ s.inLen.toNat)
    (hN : s.frames.length < s.cfg.maxFrames) (hsz : s.frameSizeAt s.rptr.toNat ≤ s.cfg.maxPayload) :
    s.frdStaged = .ok (({ s with
      frames := s.frames ++ [s.frameAt s.rptr.toNat]
      rptr := BitVec.ofNat 32 (s.rptr.toNat + 10 + s.frameSizeAt s.rptr.toNat) } : State).setResults
        s.frames.length (s.frameSizeAt s.rptr.toNat)) := by
  rw [State.frdStaged]
  exact (if_neg (by omega)).trans ((if_neg (by omega)).trans ((if_neg (by omega)).trans (if_neg (by omega))))

end

/-- Settles O12, by R141's checks in their order. -/
theorem frdAppendsTheFrameAtRptr : Obligations.FrdAppendsTheFrameAtRptr := by
  refine ⟨rfl, fun s => ?effect, fun s w h hop hk => ?operand⟩
  case effect =>
    dsimp only
    rw [sizeIn_eq, frameIn_eq]
    have hraise {e : CmdError} (he : s.frdStaged = .error e) := exec_raised_of_staged_error (i := .frd) he
    exact ⟨fun ⟨hin, hN, hsz⟩ => exec_of_staged_ok (i := .frd) (State.frdStaged_of_room hin hN hsz),
      fun hhead => hraise (State.frdStaged_of_header_past_end hhead),
      fun ⟨hhead, hpay⟩ => hraise (State.frdStaged_of_payload_past_end hhead hpay),
      fun ⟨hin, hN⟩ => hraise (State.frdStaged_of_store_full hin hN),
      fun ⟨hin, hN, hsz⟩ => hraise (State.frdStaged_of_payload_too_long hin hN hsz)⟩
  case operand => exact step_of_byteOf_nonZeroOperand (i := .frd) h rfl (congrArg BitVec.toNat hop) hk

/-! ### FWR, one lemma per outcome of an index below N -/

section
variable {s : State} {k : Nat} {f : Frame}

/-- The state FWR leaves: the frame's bytes appended to OUT, RES0 = L and RES1 = the new OUT_LEN (R145). -/
theorem exec_fwr_of_room (hf : s.frames[k]? = some f) (h : s.outLen.toNat + f.extent ≤ s.cfg.outCap) :
    exec (.fwr k) s = .next ((s.appendOut f.bytes).setResults f.extent (s.outLen.toNat + f.extent)).commit := by
  apply exec_of_staged_ok
  have hres : BitVec.ofNat 32 (s.appendOut f.bytes).outLen.toNat = BitVec.ofNat 32 (s.outLen.toNat + f.extent) := by
    rw [BitVec.ofNat_toNat, BitVec.setWidth_eq, State.appendOut_outLen, f.length_bytes]
  rw [State.staged, State.withFrame_of_some hf, State.fwrFrame, State.tryAppendOut_of_room (by rwa [f.length_bytes])]
  simp only [State.setResults, hres]

theorem exec_fwr_of_full (hf : s.frames[k]? = some f) (h : s.cfg.outCap < s.outLen.toNat + f.extent) :
    exec (.fwr k) s = .next (raised s 6 3 (s.outLen.toNat + f.extent)) := by
  apply exec_raised_of_staged_error (e := .capacityExceeded 3 (s.outLen.toNat + f.extent))
  rw [State.staged, State.withFrame_of_some hf, State.fwrFrame, State.tryAppendOut_of_full (by rwa [f.length_bytes]),
    f.length_bytes]

end

/-- Settles O13: the index is checked first (R96), then the room for the frame's `10 + size` bytes. -/
theorem fwrAppendsTheFrameBytes : Obligations.FwrAppendsTheFrameBytes := by
  refine ⟨fun k hk => ?word, fun s k f hf => ⟨fun hroom => ?room, fun hfull => exec_fwr_of_full hf hfull⟩,
    fun s w h hop hN => ?index⟩
  case word =>
    obtain ⟨hop, hopnd⟩ := Laws.EncodeFields.fwr k hk
    exact encode_eq_shiftLeft_or (.fwr k) ▸ decode_of_fields hop hopnd
  case room =>
    have hout := outWritten_appendOut s f.bytes
    have hlen := f.length_bytes
    rw [frameBytes_eq]
    refine ⟨_, exec_fwr_of_room hf hroom, hout, hlen, ?_⟩
    rw [State.appendOut, hlen]
    rfl
  case index => exact step_of_byteOf_index_ge (i := .fwr _) h rfl (congrArg BitVec.toNat hop) rfl hN

/-! ### FRD, then FWR of the frame it read -/

theorem State.frameAt_extent (s : State) (p : Nat) : (s.frameAt p).extent = 10 + s.frameSizeAt p := by
  rw [Frame.extent, State.frameAt, State.length_memRead]

/-- Settles O14: FRD's frame is the last of the store, and its record written out is the bytes it was read from. -/
theorem frameReadIsWrittenBackByteForByte : Obligations.FrameReadIsWrittenBackByteForByte := by
  intro s
  dsimp only
  rw [sizeIn_eq, inBytes_eq_memRead, ← State.frameAt_bytes, ← State.frameAt_extent]
  intro hin hN hsz hroom hcfg
  have hend : s.rptr.toNat + 10 + s.frameSizeAt s.rptr.toNat ≤ s.inLen.toNat := by
    rwa [State.frameAt_extent, ← Nat.add_assoc] at hin
  have hlast : (s.frames ++ [s.frameAt s.rptr.toNat])[(s.frames ++ [s.frameAt s.rptr.toNat]).length - 1]? =
      some (s.frameAt s.rptr.toNat) := by
    rw [← List.getLast?_eq_getElem?, List.getLast?_concat]
  have hfrd := exec_of_staged_ok (i := .frd) (State.frdStaged_of_room hend hN hsz)
  refine ⟨_, _, hfrd, exec_fwr_of_room hlast hroom, rfl, outWritten_appendOut s _, ?outLen⟩
  case outLen =>
    have hcap := hcfg.outCap_le
    simp only [State.commit_outLen, State.setResults_outLen, State.appendOut_outLen, Frame.length_bytes]
    exact toNat_ofNat_of_lt (by omega)

end Sys2Proof.Machine
end

section
/-!
PROOFS. The tag commands: TRD on laid-out tags and on those only (42_tag_codec.md R172 to R178), what it leaves (R184, R185), TWR's three outcomes
(R186, R187, R190), the bytes of a tag read by the one and written by the other (R192), and TCLR (R195).
-/

namespace Sys2Proof.Machine

open Sys2Proof.Spec

/-! ### TRD, from the layout to the store -/

/-- The header of a tag at p, as the layout says. -/
def headerRead (s : State) (p : Nat) : TagHeader where
  hdr0 := { verMajor := s.inByte (p + 3), verMinor := s.inByte (p + 4), hflags := s.inByte (p + 5) }
  size := tagSize s p

theorem State.readTagHeader_eq_headerRead {s : State} {p : Nat} {hd : TagHeader} (h : s.readTagHeader p = .ok hd) :
    hd = headerRead s p := by
  obtain ⟨hheader, -, -, -⟩ := State.readTagHeader_ok h
  rw [State.readTagHeader_of_header hheader] at h
  exact (Except.ok.inj h).symm

/-- What the frame loop leaves of a tag at p with the frames fs and pad bytes of padding. -/
def bodyRead (s : State) (p : Nat) (fs : List Frame) (pad : Nat) : TagBody where
  frames := fs
  pad := decide (0 < pad)
  pos := framesEnd s p fs
  avail := pad

/-- TRD's commit of what the three phases read is the state R178 describes. -/
theorem State.commit_storeTag_eq_tagRead (s : State) (p : Nat) (fs : List Frame) (pad : Nat) :
    (s.storeTag (headerRead s p) (extRead s p) (bodyRead s p fs pad)).commit = tagRead s p fs pad := by
  simp only [tagRead, bigEndian_memRead4, bigEndian_memRead2]
  simp only [State.storeTag, State.commit, State.setResults, headerRead, extRead, bodyRead, apply_ite (BitVec.ofNat 32)]
  rfl

/-- The frame loop reads the frames and stops where they end, at the end of the tag or at its padding (42_tag_codec.md R179 to R181). -/
theorem State.readFrames_of_tagAt {s : State} {p : Nat} {fs : List Frame} {pad : Nat} (h : TagAt s p fs pad) :
    s.readFrames (tagSize s p / 10 + 1) (p + 10 + extLen s p) (tagSize s p - extLen s p) 0 = .ok (bodyRead s p fs pad) := by
  have hsize := h.size
  have hcount := length_le_extent fs
  have hfuel : tagSize s p / 10 + 1 = (tagSize s p / 10 - fs.length + 1) + fs.length := by omega
  have hrest : tagSize s p - extLen s p - extent fs = pad := by omega
  have hstop : s.readFrames (tagSize s p / 10 - fs.length + 1) (framesEnd s p fs) pad (0 + fs.length) =
      .ok { frames := [], pad := decide (0 < pad), pos := framesEnd s p fs, avail := pad } := by
    obtain rfl | hpad := Nat.eq_zero_or_pos pad
    · exact State.readFrames_end s _ _ _
    · rw [State.readFrames_padding hpad (h.padding hpad), decide_eq_true hpad]
  have hend : p + 10 + extLen s p + extent fs = framesEnd s p fs := rfl
  rw [hfuel, State.readFrames_append h.frames (by omega), hrest, hend, hstop]
  simp only [Except.map, TagBody.prepend, bodyRead, List.append_nil]

theorem State.trdStaged_of_phases {s : State} {hd : TagHeader} {x : ExtHeader} {b : TagBody}
    (hhd : s.readTagHeader s.rptr.toNat = .ok hd)
    (hx : s.readExtHeader hd.hdr0.hflags hd.size (s.rptr.toNat + 10) = .ok x)
    (hb : s.readFrames (hd.size / 10 + 1) (s.rptr.toNat + 10 + x.len) (hd.size - x.len) 0 = .ok b) :
    s.trdStaged = .ok (s.storeTag hd x b) := by
  simp only [State.trdStaged, hhd, hx, hb]

/-- TRD on a laid-out tag (42_tag_codec.md R178). -/
theorem exec_trd_of_tagAt {s : State} {fs : List Frame} {pad : Nat} (h : TagAt s s.rptr.toNat fs pad) :
    exec .trd s = .next (tagRead s s.rptr.toNat fs pad) := by
  rw [← State.commit_storeTag_eq_tagRead]
  exact exec_of_staged_ok (i := .trd) (State.trdStaged_of_phases (State.readTagHeader_of_header h.header)
    (State.readExtHeader_of_fits h.ext) (State.readFrames_of_tagAt h))

theorem extLen_le_tagSize {s : State} {p : Nat} (h : ExtFits s p) : extLen s p ≤ tagSize s p := by
  by_cases hf : ExtFlag s p
  · exact (h hf).1
  · rw [extLen_of_no_flag hf]
    exact Nat.zero_le _

/-- A TRD that succeeds read a laid-out tag. -/
theorem exec_trd_success {s t : State} (h : exec .trd s = .next t) (herr : t.status.err = 0) :
    ∃ fs pad, TagAt s s.rptr.toNat fs pad ∧ t = tagRead s s.rptr.toNat fs pad := by
  obtain ⟨u, hu, -⟩ := exec_success h herr
  obtain ⟨hd, x, b, hhd, hx, hb, -⟩ := State.trdStaged_ok hu
  obtain ⟨hheader, -, -, -⟩ := State.readTagHeader_ok hhd
  obtain rfl := State.readTagHeader_eq_headerRead hhd
  obtain ⟨hext, rfl⟩ := State.readExtHeader_ok hx
  simp only [headerRead, extRead] at hb
  obtain ⟨hframes, hpos, havail, -, hpad⟩ := State.readFrames_ok hb (by omega)
  have htag : TagAt s s.rptr.toNat b.frames b.avail := by
    refine ⟨hheader, hext, hframes, ?size, fun hpos' => ?padding⟩
    case size =>
      have hle := extLen_le_tagSize hext
      omega
    case padding =>
      rw [framesEnd, ← hpos]
      exact hpad hpos'
  exact ⟨_, _, htag, Host.Outcome.next.inj (h.symm.trans (exec_trd_of_tagAt htag))⟩

/-- Settles O17: each of TRD's three phases reads its part of the layout. -/
theorem trdReadsEveryLaidOutTag : Obligations.TrdReadsEveryLaidOutTag := fun _ _ _ h => exec_trd_of_tagAt h

/-! ### TRD on a stream without a whole header -/

section
variable {s : State}

theorem State.trdStaged_of_header_error {e : CmdError} (h : s.readTagHeader s.rptr.toNat = .error e) :
    s.trdStaged = .error e := by
  rw [State.trdStaged, h]

theorem State.readTagHeader_of_no_id {p : Nat} (h : ¬ HasTagId s p) : s.readTagHeader p = .error (.notATag p) :=
  if_pos (mt (hasTagId_iff s p).2 h)

theorem State.readTagHeader_of_id_past_end {p : Nat} (hid : HasTagId s p) (h : s.inLen.toNat < p + 10) :
    s.readTagHeader p = .error (.truncatedStream p 10) :=
  (if_neg (Classical.not_not.2 ((hasTagId_iff s p).1 hid))).trans (if_pos h)

theorem State.readTagHeader_error_of_id {p : Nat} {e : CmdError} (hid : HasTagId s p) (h : s.readTagHeader p = .error e) :
    e.code = 3 := by
  by_cases hend : s.inLen.toNat < p + 10
  · rw [State.readTagHeader_of_id_past_end hid hend] at h
    cases h
    rfl
  · rw [State.readTagHeader_of_header ⟨hid, by omega⟩] at h
    cases h

/-- With the signature no phase of TRD raises NotATag. -/
theorem State.trdStaged_error_of_id {e : CmdError} (hid : HasTagId s s.rptr.toNat) (h : s.trdStaged = .error e) :
    e.code = 2 ∨ e.code = 3 ∨ e.code = 6 := by
  unfold State.trdStaged at h
  split at h
  · cases h
    exact .inr (.inl (State.readTagHeader_error_of_id hid ‹_›))
  · split at h
    · cases h
      exact (State.readExtHeader_error ‹_›).imp_right .inl
    · split at h
      · cases h
        exact State.readFrames_error ‹_›
      · cases h

end

/-- Settles O15: the header phase raises NotATag without the signature, and nothing raises it with the signature. -/
theorem trdReportsNotATagExactlyWithoutSignature : Obligations.TrdReportsNotATagExactlyWithoutSignature := by
  intro s
  have hraise {e : CmdError} (he : s.readTagHeader s.rptr.toNat = .error e) :=
    exec_raised_of_staged_error (i := .trd) (State.trdStaged_of_header_error he)
  refine ⟨fun hno => hraise (State.readTagHeader_of_no_id hno), fun t ht herr hid => ?_,
    fun ⟨hid, hend⟩ => hraise (State.readTagHeader_of_id_past_end hid hend)⟩
  obtain ⟨u, -, -, h0⟩ | ⟨e, he, rfl, -⟩ := exec_cases ht
  · rw [h0] at herr
    cases herr
  · rw [State.raise_status, Status.afterError_err] at herr
    have hcode := State.trdStaged_error_of_id hid he
    rw [herr] at hcode
    revert hcode
    decide

/-! ### What a successful TRD leaves -/

/-- HDR_SIZE after a TRD is S (42_tag_codec.md R178). -/
theorem tagRead_hdrSize_toNat (s : State) (p : Nat) (fs : List Frame) (pad : Nat) :
    (tagRead s p fs pad).hdrSize.toNat = tagSize s p :=
  toNat_ofNat_of_lt (Nat.lt_trans (tagSize_lt s p) (by decide))

/-- RES1 after a TRD is the number of tag bytes before the padding (42_tag_codec.md R178). -/
theorem tagRead_res1_toNat (s : State) (p : Nat) (fs : List Frame) (pad : Nat) :
    (tagRead s p fs pad).res1.toNat = tagSize s p - pad :=
  toNat_ofNat_of_lt (Nat.lt_of_le_of_lt (Nat.sub_le _ _) (Nat.lt_trans (tagSize_lt s p) (by decide)))

/-- The padding as the registers tell it after a TRD: HDR_SIZE less RES1 when PADDET says that there is any (42_tag_codec.md R185). -/
def State.paddingFound (t : State) : Nat := bif t.status.paddet then t.hdrSize.toNat - t.res1.toNat else 0

theorem paddingFound_tagRead {s : State} {p : Nat} {fs : List Frame} {pad : Nat} (h : TagAt s p fs pad) :
    (tagRead s p fs pad).paddingFound = pad := by
  have hsize := h.size
  rw [State.paddingFound, tagRead_hdrSize_toNat, tagRead_res1_toNat, tagRead_status]
  obtain rfl | hpad := Nat.eq_zero_or_pos pad
  · rfl
  · rw [decide_eq_true hpad, cond_true]
    omega

/-- The extended header, the frames and the padding make up the declared size (42_tag_codec.md R185). -/
theorem hdrSize_of_exec_trd {s t : State} (h : exec .trd s = .next t) (herr : t.status.err = 0) :
    storedExtLen t.extCtrl + extent t.frames + t.paddingFound = t.hdrSize.toNat := by
  obtain ⟨fs, pad, htag, rfl⟩ := exec_trd_success h herr
  rw [storedExtLen_tagRead, tagRead_frames, paddingFound_tagRead htag, tagRead_hdrSize_toNat, htag.size]

/-- Settles O20, by the layout of the tag that was read: its parts stand in the registers. -/
theorem tagSizeIsFramesPlusPadding : Obligations.TagSizeIsFramesPlusPadding := by
  intro s t h herr
  have hsize := hdrSize_of_exec_trd h herr
  rw [storedExtLen] at hsize
  refine ⟨fun hx => ?absent, fun hx => ?present⟩
  case absent => rwa [hx, cond_false, Nat.zero_add] at hsize
  case present => rwa [hx, cond_true] at hsize

/-- The rule a successful CLS reports is the one that fires for the frame it names (43_classifier.md R222). -/
theorem exec_cls_success {k : Nat} {t u : State} (h : exec (.cls k) t = .next u) (herr : u.status.err = 0) :
    ∃ f ∈ t.frames, u.res1.toNat = f.clsRule := by
  obtain ⟨v, hv, rfl⟩ := exec_success h herr
  obtain ⟨f, hf, hcls⟩ := State.withFrame_ok hv
  obtain ⟨-, rfl⟩ := State.clsFrame_ok hcls
  have hrange := f.clsRule_range
  exact ⟨f, List.mem_of_getElem? hf, toNat_ofNat_of_lt (by omega)⟩

/-- Settles O21: TRD stores frames of a layout, whose term is 0, and rule 4 needs another term. -/
theorem framesFromTrdNeverTakeRuleFour : Obligations.FramesFromTrdNeverTakeRuleFour := by
  intro s t h herr
  obtain ⟨fs, pad, htag, rfl⟩ := exec_trd_success h herr
  have hterm : ∀ f ∈ fs, f.term = 0 := fun f hf => ((framesAt_bounds htag.frames).2 f hf).2
  refine ⟨hterm, fun k u hcls hu => ?_⟩
  obtain ⟨f, hf, hrule⟩ := exec_cls_success hcls hu
  rw [hrule]
  exact ⟨f.clsRule_range.1, Frame.clsRule_le_three (hterm f hf)⟩

/-! ### TWR, one lemma per outcome -/

section
variable {s : State}

theorem exec_twr_of_room (hsize : s.hdrSize.toNat < 2 ^ 28) (h : s.outLen.toNat + s.tagBytes.length ≤ s.cfg.outCap) :
    exec .twr s = .next ((s.appendOut s.tagBytes).setResults s.tagBytes.length s.frames.length).commit := by
  apply exec_of_staged_ok
  rw [State.staged, State.twrStaged, if_neg (by omega), State.tryAppendOut_of_room h]

theorem exec_twr_of_size_ge (h : 2 ^ 28 ≤ s.hdrSize.toNat) : exec .twr s = .next (raised s 4 s.hdrSize.toNat 0) :=
  exec_raised_of_staged_error (i := .twr) (e := .encodingRange s.hdrSize.toNat) (if_pos h)

theorem exec_twr_of_full (hsize : s.hdrSize.toNat < 2 ^ 28) (h : s.cfg.outCap < s.outLen.toNat + s.tagBytes.length) :
    exec .twr s = .next (raised s 6 3 (s.outLen.toNat + s.tagBytes.length)) := by
  apply exec_raised_of_staged_error (e := .capacityExceeded 3 (s.outLen.toNat + s.tagBytes.length))
  rw [State.staged, State.twrStaged, if_neg (by omega), State.tryAppendOut_of_full h]

end

/-- Settles O23: the size is checked first (R186), then the room for tag_bytes. -/
theorem twrAppendsTheTagBytes : Obligations.TwrAppendsTheTagBytes := by
  refine ⟨rfl, fun s => ?effect, fun s w h hop hk => ?operand⟩
  case effect =>
    rw [tagBytes_eq]
    exact ⟨fun ⟨hsize, hroom⟩ => ⟨_, exec_twr_of_room hsize hroom, outWritten_appendOut s _, rfl⟩,
      exec_twr_of_size_ge, fun ⟨hsize, hfull⟩ => exec_twr_of_full hsize hfull⟩
  case operand => exact step_of_byteOf_nonZeroOperand (i := .twr) h rfl (congrArg BitVec.toNat hop) hk

/-! ### The size field TWR writes -/

/-- A byte of an encoded synchsafe field has bit 7 clear (40_synchsafe.md R120). -/
theorem topBit_of_mem_ssEncode {x : Nat} {b : Byte} (h : b ∈ (ssEncode x).toList) : b.getLsbD 7 = false := by
  have hlt : b.toNat < 128 := by
    simp only [Bytes4.toList, List.mem_cons, List.not_mem_nil, or_false] at h
    obtain rfl | rfl | rfl | rfl := h
    · rw [ssEncode_b0]; omega
    · rw [ssEncode_b1]; omega
    · rw [ssEncode_b2]; omega
    · rw [ssEncode_b3]; omega
  rw [getLsbD_seven, decide_eq_false (by omega)]

/-- Bytes 6 to 9 of tag_bytes are the size field (42_tag_codec.md R187). -/
theorem State.tagBytes_getElem_size (s : State) {j : Nat} (h6 : 6 ≤ j) (h10 : j < 10) (h : j < s.tagBytes.length) :
    s.tagBytes[j] ∈ (ssEncode s.hdrSize.toNat).toList := by
  obtain ⟨pre, hpre, hparts⟩ : ∃ pre : List Byte, pre.length = 6 ∧
      s.tagBytes = pre ++ ((ssEncode s.hdrSize.toNat).toList ++ (s.extBytes ++ framesBytes s.frames)) :=
    ⟨id3Bytes ++ [s.hdr0.verMajor, s.hdr0.verMinor, s.hdr0.hflags], rfl,
      by simp only [State.tagBytes, State.headerBytes, List.append_assoc]⟩
  have hlo : pre.length ≤ j := by omega
  have hhi : j - pre.length < (ssEncode s.hdrSize.toNat).toList.length := by
    rw [bytes4_length_toList]
    omega
  rw [List.getElem_of_eq hparts, List.getElem_append_right hlo, List.getElem_append_left hhi]
  exact List.getElem_mem _

/-- Settles O24: the size field written is an encoded synchsafe field. -/
theorem twrWritesSizeWithTopBitsClear : Obligations.TwrWritesSizeWithTopBitsClear := by
  intro s t h herr j ⟨h6, h10⟩
  obtain ⟨u, hu, rfl⟩ := exec_success h herr
  obtain ⟨-, -, rfl⟩ := State.twrStaged_ok hu
  have hj : j < s.tagBytes.length := by
    rw [length_tagBytes]
    omega
  exact ⟨_, (outWritten_appendOut s s.tagBytes).1 j hj, topBit_of_mem_ssEncode (s.tagBytes_getElem_size h6 h10 hj)⟩

/-! ### TRD, then TWR -/

/-- Bit 7 is clear in each of four bytes of IN: none of them has a top bit to lose. -/
theorem topBits_memRead4 {s : State} {a : Nat} (h : ∀ j, j < 4 → (s.inByte (a + j)).getLsbD 7 = false) :
    topBits (s.memRead4 a) = 0 := by
  have h0 := h 0 (by decide)
  have h1 := h 1 (by decide)
  have h2 := h 2 (by decide)
  have h3 := h 3 (by decide)
  rw [Nat.add_zero] at h0
  simp only [topBits, topBit_eq, State.memRead4, h0, h1, h2, h3]
  rfl

/-- Settles O22: without padding and with clear top bits, tag_bytes of the store TRD left is the tag's own bytes in IN. -/
theorem tagReadIsWrittenBackByteForByte : Obligations.TagReadIsWrittenBackByteForByte := by
  intro s t hcfg h herr hpaddet
  obtain ⟨fs, pad, htag, rfl⟩ := exec_trd_success h herr
  obtain rfl : pad = 0 := Nat.eq_zero_of_not_pos (of_decide_eq_false hpaddet)
  dsimp only
  rw [tagRead_hdrSize_toNat, inBytes_eq_memRead]
  intro htop hroom
  have hlen : (tagRead s s.rptr.toNat fs 0).tagBytes.length = 10 + tagSize s s.rptr.toNat := length_tagBytes_tagRead htag
  have hsize : (tagRead s s.rptr.toNat fs 0).hdrSize.toNat < 2 ^ 28 := by
    rw [tagRead_hdrSize_toNat]
    exact tagSize_lt _ _
  rw [← tagBytes_tagRead htag (topBits_memRead4 htop)]
  refine ⟨_, exec_twr_of_room hsize (by rwa [hlen]), rfl, outWritten_appendOut (tagRead s s.rptr.toNat fs 0) _, ?outLen⟩
  case outLen =>
    have hcap := hcfg.outCap_le
    simp only [State.commit_outLen, State.setResults_outLen, State.appendOut_outLen, tagRead_outLen, hlen]
    exact toNat_ofNat_of_lt (by omega)

/-! ### TCLR -/

theorem exec_tclr (s : State) : exec .tclr s = .next s.cleared.commit := rfl

/-- The tag store's registers, 9 to 15, read 0 after a TCLR. -/
theorem State.readReg_cleared (s : State) {n : Nat} (hn : n = 9 ∨ n = 10 ∨ n = 11 ∨ n = 12 ∨ n = 13 ∨ n = 14 ∨ n = 15) :
    s.cleared.commit.readReg n = 0 := by
  obtain rfl | rfl | rfl | rfl | rfl | rfl | rfl := hn <;> rfl

/-- Settles O26: TCLR never fails once decoded, and commits the emptied store. -/
theorem tclrEmptiesTheStore : Obligations.TclrEmptiesTheStore :=
  ⟨rfl, fun s => ⟨_, exec_tclr s, fun _ hn => s.readReg_cleared hn, rfl, rfl, rfl⟩,
    fun _ _ h hop hk => step_of_byteOf_nonZeroOperand (i := .tclr) h rfl (congrArg BitVec.toNat hop) hk⟩

end Sys2Proof.Machine
end

section
/-!
PROOFS. The classifier: CLS's outcomes against the index loops of the pseudocode (43_classifier.md R222), and its frame (R232).
-/

namespace Sys2Proof.Machine

open Sys2Proof.Spec

/-! ### CLS, one lemma per outcome of an index below N -/

section
variable {s : State} {k : Nat} {f : Frame}

/-- The state CLS leaves: the rendered units in COUT, RES0 their number and RES1 the rule (R222). -/
theorem exec_cls_of_room (hf : s.frames[k]? = some f) (h : (f.render s.cfg.apicPlaceholder).length ≤ s.cfg.coutCap) :
    exec (.cls k) s = .next ((s.replaceCout (f.render s.cfg.apicPlaceholder)).setResults
      (f.render s.cfg.apicPlaceholder).length f.clsRule).commit := by
  apply exec_of_staged_ok
  rw [State.staged, State.withFrame_of_some hf]
  exact if_neg (Nat.not_lt.2 h)

theorem exec_cls_of_full (hf : s.frames[k]? = some f) (h : s.cfg.coutCap < (f.render s.cfg.apicPlaceholder).length) :
    exec (.cls k) s = .next (raised s 6 4 (f.render s.cfg.apicPlaceholder).length) := by
  apply exec_raised_of_staged_error (e := .capacityExceeded 4 (f.render s.cfg.apicPlaceholder).length)
  rw [State.staged, State.withFrame_of_some hf]
  exact if_pos h

end

/-- Settles O27: the index is checked first (R96), then the room for the units, which are those of the index loops. -/
theorem clsFollowsThePseudocode : Obligations.ClsFollowsThePseudocode := by
  refine ⟨fun k hk => ?word, fun s k f hf => ?effect, fun s w h hop hN => ?index⟩
  case word =>
    obtain ⟨hop, hopnd⟩ := Laws.EncodeFields.cls k hk
    exact encode_eq_shiftLeft_or (.cls k) ▸ decode_of_fields hop hopnd
  case effect =>
    rw [classify_eq]
    exact ⟨fun hroom => ⟨_, exec_cls_of_room hf hroom, coutWritten_replaceCout s _, rfl⟩, fun hfull => exec_cls_of_full hf hfull⟩
  case index => exact step_of_byteOf_index_ge (i := .cls _) h rfl (congrArg BitVec.toNat hop) rfl hN

/-- Settles O28: a successful CLS committed new units and results, a failing one raised its error on the state it started from. -/
theorem clsWritesOnlyItsOutput : Obligations.ClsWritesOnlyItsOutput := by
  intro k s t h
  obtain ⟨u, hu, rfl, -⟩ | ⟨e, -, rfl, -⟩ := exec_cases h
  · obtain ⟨f, -, hcls⟩ := State.withFrame_ok hu
    obtain ⟨-, rfl⟩ := State.clsFrame_ok hcls
    rfl
  · rfl

end Sys2Proof.Machine
end

section
/-!
PROOFS. Failing commands: the state after one is its error raised on the state it started from (60_exceptions.md R268, R269).
-/

namespace Sys2Proof.Machine

/-- A failing command raised the error its staged computation ended in; nothing staged survives it. -/
theorem exec_failure {i : Instr} {s t : State} (h : exec i s = .next t) (he : t.status.err ≠ 0) :
    ∃ e, s.staged i = .error e ∧ t = s.raise e := by
  obtain ⟨u, -, -, h0⟩ | ⟨e, hstaged, rfl, -⟩ := exec_cases h
  · exact absurd h0 he
  · exact ⟨e, hstaged, rfl⟩

/-- What `raise` leaves, with the sticky summary told by the code that STATUS.ERR then holds (60_exceptions.md R261). -/
theorem State.raise_eq_with_results (s : State) (e : CmdError) :
    s.raise e = { s with
      status := { s.status with
        err := (s.raise e).status.err, errs := s.status.errs || decide (2 ≤ (s.raise e).status.err.toNat) }
      res0 := (s.raise e).res0
      res1 := (s.raise e).res1 } := rfl

/-- Settles O30: a failing command only raised an error, and raising writes ERR, ERRS, RES0 and RES1. -/
theorem failingCommandsChangeNothingElse : Obligations.FailingCommandsChangeNothingElse := by
  intro i s t h herr
  obtain ⟨e, -, rfl⟩ := exec_failure h herr
  exact s.raise_eq_with_results e

end Sys2Proof.Machine
end

section
/-!
PROOFS. The state after reset: what every command does there (70_reset_and_hazards.md R294).
-/

namespace Sys2Proof.Machine

open Sys2Proof.Spec

/-- Completing staged results gives a next state, whichever way they end. -/
theorem exec_ends_in_next (i : Instr) (s : State) : ∃ t : State, exec i s = .next t := by
  rw [exec_eq_complete]
  exact s.complete_next _

/-- With IN_LEN = 0 the stream is too short for a signature at any address. -/
theorem not_hasTagId_resetWith (c : Config) (p : Nat) : ¬ HasTagId (State.resetWith c) p := fun h => Nat.not_succ_le_zero _ h.1

theorem exec_trd_resetWith (c : Config) : exec .trd (State.resetWith c) = .next (raised (State.resetWith c) 1 0 0) :=
  exec_raised_of_staged_error (i := .trd)
    (State.trdStaged_of_header_error (State.readTagHeader_of_no_id (not_hasTagId_resetWith c _)))

/-- The store is empty after reset, so it holds no frame for an index to name. -/
theorem exec_takesIndex_resetWith (c : Config) {i : Instr} (hi : i.takesIndex = true) :
    exec i (State.resetWith c) = .next (raised (State.resetWith c) 5 (encode i).toNat 2) := by
  rw [exec_of_index_ge hi (Nat.zero_le _), raised_illegalCommand]

/-- The tag of the reset state is its header alone, with every field 0. -/
theorem State.tagBytes_resetWith (c : Config) : (State.resetWith c).tagBytes = [0x49, 0x44, 0x33, 0, 0, 0, 0, 0, 0, 0] := by
  have hsize : (ssEncode 0).toList = [0, 0, 0, 0] := by decide
  have hheader : (State.resetWith c).headerBytes = [0x49, 0x44, 0x33, 0, 0, 0, 0, 0, 0, 0] :=
    congrArg ([0x49, 0x44, 0x33, 0, 0, 0] ++ ·) hsize
  have hext : (State.resetWith c).extBytes = [] := if_pos rfl
  rw [State.tagBytes, hheader, hext]
  rfl

theorem exec_twr_resetWith {c : Config} (hcap : 10 ≤ c.outCap) :
    exec .twr (State.resetWith c) =
      .next (((State.resetWith c).appendOut [0x49, 0x44, 0x33, 0, 0, 0, 0, 0, 0, 0]).setResults 10 0).commit := by
  have hroom : (State.resetWith c).outLen.toNat + (State.resetWith c).tagBytes.length ≤ c.outCap := by
    rw [State.tagBytes_resetWith]
    exact hcap
  rw [exec_twr_of_room (s := State.resetWith c) (Nat.two_pow_pos 28) hroom, State.tagBytes_resetWith]
  rfl

/-- Settles O43: TRD finds no signature, FWR and CLS find no frame, and TWR writes the header of an empty tag. -/
theorem commandsRightAfterReset : Obligations.CommandsRightAfterReset := by
  intro c
  refine ⟨fun i => exec_ends_in_next i _, exec_trd_resetWith c, exec_takesIndex_resetWith c (i := .fwr 0) rfl,
    exec_takesIndex_resetWith c (i := .cls 0) rfl, fun hcap => ?twr⟩
  case twr => exact ⟨_, exec_twr_resetWith hcap, rfl, rfl, outWritten_appendOut (State.resetWith c) _⟩

end Sys2Proof.Machine
end

section
/-!
PROOFS. The command word, decoder against encoder (30_encoding.md R92 to R97), and the register that holds it (10_state.md R21).
-/

namespace Sys2Proof

open Sys2Proof.Machine

/-! ### The fields of a word -/

theorem encode_fields {i : Instr} (h : i.WellFormed) : opcodeField (encode i) = i.opcode ∧ operandField (encode i) = i.operand := by
  cases i with
  | ssdec => exact Laws.EncodeFields.ssdec h
  | ssenc => exact Laws.EncodeFields.ssenc h
  | frd => exact Laws.EncodeFields.frd h
  | fwr k => exact Laws.EncodeFields.fwr k h
  | trd => exact Laws.EncodeFields.trd h
  | twr => exact Laws.EncodeFields.twr h
  | cls k => exact Laws.EncodeFields.cls k h
  | tclr => exact Laws.EncodeFields.tclr h

theorem operandField_lt (w : Word) : operandField w < 2 ^ 24 := by
  have hw := w.isLt
  rw [operandField]
  omega

theorem noOperand_ok {k : Nat} {i j : Instr} (h : noOperand k i = .ok j) : k = 0 ∧ i = j := by
  unfold noOperand at h
  split at h
  · exact ⟨‹_›, Except.ok.inj h⟩
  · cases h

/-- The inversion of the decoder: a word has the fields of the command it decodes to. -/
theorem fields_of_decode {w : Word} {i : Instr} (h : decode w = .ok i) : opcodeField w = i.opcode ∧ operandField w = i.operand := by
  unfold decode at h
  split at h
  case h_4 hop => exact Except.ok.inj h ▸ ⟨hop, rfl⟩
  case h_7 hop => exact Except.ok.inj h ▸ ⟨hop, rfl⟩
  case h_9 => cases h
  all_goals
    obtain ⟨hk, rfl⟩ := noOperand_ok h
    exact ⟨‹_›, hk⟩

/-- Settles O1: the word's fields are the command's own, and the decoder reads nothing but the fields. -/
theorem encodedCommandsDecodeBack : Obligations.EncodedCommandsDecodeBack := by
  intro i h
  obtain ⟨hop, hk⟩ := encode_fields h
  exact decode_of_fields hop hk

/-- Settles O2: the two fields are all 32 bits of the word, and the operand's has 24 of them. -/
theorem decodedWordsEncodeBack : Obligations.DecodedWordsEncodeBack := by
  intro w i h
  obtain ⟨hop, hk⟩ := fields_of_decode h
  have hwf : i.operand < 2 ^ 24 := hk ▸ operandField_lt w
  exact ⟨hwf, encode_of_fields hop hk⟩

/-- Settles O6, word by word. -/
theorem writtenOutWordsDecode : Obligations.WrittenOutWordsDecode := ⟨rfl, rfl, rfl, rfl, rfl, rfl, rfl, rfl⟩

/-! ### The step of a word, and CMD -/

/-- Settles O4: the host's write of CMD issues the command in the state in which it has moved on. -/
theorem stepRunsTheDecodedCommand : Obligations.StepRunsTheDecodedCommand := fun _ _ _ h hd => step_of_decode_ok h hd

/-- Settles O5: the host's write stores the word before the command runs, and neither a command nor an error writes CMD. -/
theorem cmdHoldsTheLastWordWritten : Obligations.CmdHoldsTheLastWordWritten := by
  refine ⟨fun s t w h ht => ?step, fun i s t h => (exec_keeps h).cmd, fun c => rfl⟩
  case step =>
    cases hd : decode w with
    | ok i =>
      rw [step_of_decode_ok h hd] at ht
      exact (exec_keeps ht).cmd
    | error r =>
      rw [step_of_decode_error h hd] at ht
      exact Host.Outcome.next.inj ht ▸ rfl

end Sys2Proof
end

section
/-!
PROOFS. The inversion of a successful command: all that the eight of them can do.
-/

namespace Sys2Proof.Machine

open Sys2Proof.Spec

/-- Everything a command that succeeds can have done: new results only, a frame added, bytes appended to OUT, units put into COUT, a tag read or the
store emptied. -/
inductive SuccessKind (i : Instr) (s t : State) : Prop where
  | results (r0 r1 : Nat) (ht : t = (s.setResults r0 r1).commit)
  | addFrame (f : Frame) (r : Word) (r0 r1 : Nat) (hn : s.frames.length < s.cfg.maxFrames)
      (hf : f.data.length ≤ s.cfg.maxPayload) (hr : r.toNat ≤ s.inLen.toNat)
      (ht : t = (({ s with frames := s.frames ++ [f], rptr := r } : State).setResults r0 r1).commit)
  | append (bs : List Byte) (r0 r1 : Nat) (hroom : s.outLen.toNat + bs.length ≤ s.cfg.outCap)
      (ht : t = ((s.appendOut bs).setResults r0 r1).commit)
  | render (k : Nat) (us : List CodeUnit) (r0 r1 : Nat) (hi : i = .cls k) (hroom : us.length ≤ s.cfg.coutCap)
      (ht : t = ((s.replaceCout us).setResults r0 r1).commit)
  | readTag (fs : List Frame) (pad : Nat) (hi : i = .trd) (htag : TagAt s s.rptr.toNat fs pad)
      (ht : t = tagRead s s.rptr.toNat fs pad)
  | clear (hi : i = .tclr) (ht : t = s.cleared.commit)

theorem exec_success_kind {i : Instr} {s t : State} (h : exec i s = .next t) (herr : t.status.err = 0) : SuccessKind i s t := by
  obtain ⟨u, hu, rfl⟩ := exec_success h herr
  cases i with
  | ssdec => exact .results _ _ (congrArg State.commit (State.ssdecStaged_ok hu))
  | ssenc =>
    obtain ⟨-, rfl⟩ := State.ssencStaged_ok hu
    exact .results _ _ rfl
  | frd =>
    obtain ⟨hin, hn, hpay, rfl⟩ := State.frdStaged_ok hu
    have hlen : (s.frameAt s.rptr.toNat).data.length ≤ s.cfg.maxPayload := by rwa [State.frameAt, State.length_memRead]
    exact .addFrame _ _ _ _ hn hlen (Nat.le_trans (Nat.mod_le _ _) hin) rfl
  | fwr k =>
    obtain ⟨f, -, hfwr⟩ := State.withFrame_ok hu
    obtain ⟨hroom, rfl⟩ := State.fwrFrame_ok hfwr
    exact .append f.bytes _ _ (by rwa [f.length_bytes]) rfl
  | trd =>
    obtain ⟨fs, pad, htag, ht⟩ := exec_trd_success h herr
    exact .readTag fs pad rfl htag ht
  | twr =>
    obtain ⟨-, hroom, rfl⟩ := State.twrStaged_ok hu
    exact .append _ _ _ hroom rfl
  | cls k =>
    obtain ⟨f, -, hcls⟩ := State.withFrame_ok hu
    obtain ⟨hroom, rfl⟩ := State.clsFrame_ok hcls
    exact .render k _ _ _ rfl hroom rfl
  | tclr => exact .clear rfl (congrArg State.commit (State.tclrStaged_ok hu))

/-- A command that ends succeeded or raised an error, told apart by STATUS.ERR. -/
theorem exec_kind {i : Instr} {s t : State} (h : exec i s = .next t) : SuccessKind i s t ∨ ∃ e, t = s.raise e := by
  by_cases herr : t.status.err = 0
  · exact .inl (exec_success_kind h herr)
  · obtain ⟨e, -, ht⟩ := exec_failure h herr
    exact .inr ⟨e, ht⟩

end Sys2Proof.Machine
end

section
/-!
PROOFS. The invariant of the block: it holds after reset (70_reset_and_hazards.md R290), every command keeps it, and so does every step.
-/

namespace Sys2Proof.Machine

open Sys2Proof.Spec

/-- Settles O39: every length is 0, the store is empty and no cell is listed. -/
theorem theBlockIsSoundAfterReset : Obligations.TheBlockIsSoundAfterReset := by
  intro c hc
  obtain ⟨hin, hout, hcout⟩ := State.resetWith_memory_wf c
  exact {
    cfg_wf := hc
    lengths := ⟨Nat.zero_le _, Nat.zero_le _, Nat.zero_le _, Nat.zero_le _⟩
    store := ⟨Nat.zero_le _, fun f hf => absurd hf List.not_mem_nil⟩
    memories := ⟨hin, hout, hcout, Memory.below_nil _, Memory.below_nil _, Memory.below_nil _, Memory.filled_zero _,
      Memory.filled_zero _⟩
    idle := rfl
    err_le := Nat.zero_le _ }

/-- The reset signal leaves a block as after reset, whatever stood in it; only its parameters matter. -/
theorem State.Inv.hostReset {s : State} (hc : s.cfg.Wf) : s.hostReset.Inv :=
  (theBlockIsSoundAfterReset s.cfg hc).of_eq rfl rfl rfl rfl rfl rfl rfl rfl rfl rfl (Nat.zero_le _)

/-! ### TRD's new store and read pointer -/

/-- A run of frames that begins inside the stream ends inside it. -/
theorem framesAt_end_le {s : State} {p n : Nat} {fs : List Frame} (h : FramesAt s p n fs) (hp : p ≤ s.inLen.toNat) :
    p + extent fs ≤ s.inLen.toNat := by
  induction fs generalizing p n with
  | nil => exact hp
  | cons f fs ih =>
    obtain ⟨-, -, hin, -, -, hrest⟩ := h
    have htail := ih hrest hin
    rw [extent_cons]
    omega

/-- The frames of a tag begin after its header and extended header, which lie inside the stream. -/
theorem framesEnd_le {s : State} {p : Nat} {fs : List Frame} {pad : Nat} (h : TagAt s p fs pad) :
    framesEnd s p fs ≤ s.inLen.toNat := by
  refine framesAt_end_le h.frames ?_
  by_cases hf : ExtFlag s p
  · exact (h.ext hf).2
  · rw [extLen_of_no_flag hf]
    exact h.header.2

theorem State.Inv.tagRead {s : State} (h : s.Inv) {p : Nat} {fs : List Frame} {pad : Nat} (ht : TagAt s p fs pad) :
    (tagRead s p fs pad).Inv := by
  obtain ⟨hcount, hframes⟩ := framesAt_bounds ht.frames
  have hn : fs.length ≤ s.cfg.maxFrames := by
    cases fs with
    | nil => exact Nat.zero_le _
    | cons f fs =>
      rw [← Nat.zero_add (f :: fs).length]
      exact hcount (List.cons_ne_nil f fs)
  have hr : (BitVec.ofNat 32 (framesEnd s p fs)).toNat ≤ s.inLen.toNat := Nat.le_trans (Nat.mod_le _ _) (framesEnd_le ht)
  have hstore : ({ s with frames := fs, rptr := BitVec.ofNat 32 (framesEnd s p fs) } : State).Inv :=
    h.setStore hn (fun f hf => (hframes f hf).1) hr rfl rfl rfl rfl rfl rfl rfl rfl rfl
  exact hstore.of_eq rfl rfl rfl rfl rfl rfl rfl rfl rfl rfl (Nat.zero_le _)

/-! ### Commands -/

/-- Adding a frame within the bounds of the store. -/
theorem State.Inv.addFrame {s : State} (h : s.Inv) {f : Frame} {r : Word} (hn : s.frames.length < s.cfg.maxFrames)
    (hf : f.data.length ≤ s.cfg.maxPayload) (hr : r.toNat ≤ s.inLen.toNat) :
    ({ s with frames := s.frames ++ [f], rptr := r } : State).Inv := by
  refine h.setStore ?count ?payload hr rfl rfl rfl rfl rfl rfl rfl rfl rfl
  case count =>
    rw [List.length_append, List.length_singleton]
    exact hn
  case payload =>
    intro g hg
    obtain hg | hg := List.mem_append.1 hg
    · exact h.store.payload_le g hg
    · exact List.mem_singleton.1 hg ▸ hf

theorem State.Inv.cleared {s : State} (h : s.Inv) : s.cleared.Inv :=
  h.setStore (Nat.zero_le _) (fun _ hf => absurd hf List.not_mem_nil) h.lengths.rptr_le rfl rfl rfl rfl rfl rfl rfl rfl rfl

/-- Every command keeps the invariant, whatever its outcome. -/
theorem State.Inv.exec_next {s t : State} {i : Instr} (h : s.Inv) (ht : exec i s = .next t) : t.Inv := by
  obtain hkind | ⟨e, rfl⟩ := exec_kind ht
  · cases hkind with
    | results r0 r1 ht => exact ht ▸ (h.setResults _ _).commit
    | addFrame f r r0 r1 hn hf hr ht => exact ht ▸ ((h.addFrame hn hf hr).setResults _ _).commit
    | append bs r0 r1 hroom ht => exact ht ▸ ((h.appendOut hroom).setResults _ _).commit
    | render k us r0 r1 _ hroom ht => exact ht ▸ ((h.replaceCout hroom).setResults _ _).commit
    | readTag fs pad _ htag ht => exact ht ▸ h.tagRead htag
    | clear _ ht => exact ht ▸ h.cleared.commit
  · exact h.raise e

/-! ### Steps -/

/-- The host's half is outside the invariant. -/
theorem State.Inv.hostHalf {s : State} (h : s.Inv) (pos : Nat) (seen : Option HostValue) (reads : Nat) :
    ({ s with hostPos := pos, hostSeen := seen, freeReads := reads } : State).Inv :=
  h.of_eq rfl rfl rfl rfl rfl rfl rfl rfl rfl rfl h.err_le

/-- Replacing a frame by one within the payload bound. -/
theorem State.Inv.setFrame {s : State} (h : s.Inv) (k : Nat) {f : Frame} (hf : f.data.length ≤ s.cfg.maxPayload) :
    ({ s with frames := s.frames.set k f } : State).Inv := by
  refine h.setStore ?count ?payload h.lengths.rptr_le rfl rfl rfl rfl rfl rfl rfl rfl rfl
  case count =>
    rw [List.length_set]
    exact h.store.count_le
  case payload =>
    intro g hg
    obtain hg | rfl := List.mem_or_eq_of_mem_set hg
    · exact h.store.payload_le g hg
    · exact hf

/-- Settles O38, by what a step can have done. -/
theorem everyStepKeepsTheBlockSound : Obligations.EveryStepKeepsTheBlockSound := by
  intro s t h hstep
  cases step_kind hstep with
  | idle _ ht => exact ht ▸ h
  | reset _ ht => exact ht ▸ State.Inv.hostReset h.cfg_wf
  | command w i _ _ ht => exact (h.issued w).exec_next ht
  | illegal w r _ _ ht => exact ht ▸ (h.issued w).raise _
  | register n v _ _ _ ht => exact ht ▸ h.advanceHost.writeReg n v
  | input a b _ _ ht => exact ht ▸ h.advanceHost.hostWriteIn a b
  | frameSet k f hf _ _ _ ht => exact ht ▸ h.advanceHost.setFrame k hf
  | frameAppend f hf hn _ _ ht => exact ht ▸ h.advanceHost.addFrame hn hf h.lengths.rptr_le
  | hostOnly _ _ ht =>
    rw [ht]
    exact h.hostHalf _ _ _

end Sys2Proof.Machine
end

section
/-!
PROOFS. Synchsafe fields decoded and encoded again (40_synchsafe.md section 4).
-/

namespace Sys2Proof.Machine

/-- An encoded field has no top bit set, so a field with one does not come back. -/
theorem ssEncode_ssDecode_eq_iff (b : Bytes4) : ssEncode (ssDecode b) = b ↔ topBits b = 0 :=
  ⟨fun h => h ▸ topBits_ssEncode _, ssEncode_ssDecode⟩

theorem getLsbD_seven_eq_false_iff (b : Byte) : b.getLsbD 7 = false ↔ b.toNat < 128 := by
  rw [getLsbD_seven, decide_eq_false_iff_not, Nat.not_le]

/-- Settles O10: the field comes back exactly when the four top bits are 0. -/
theorem synchsafeFieldsReencodeOnlyWithTopBitsClear : Obligations.SynchsafeFieldsReencodeOnlyWithTopBitsClear := by
  intro b
  rw [ssEncode_ssDecode_eq_iff, topBits_eq_zero_iff]
  simp only [getLsbD_seven_eq_false_iff]

end Sys2Proof.Machine
end

section
/-!
PROOFS. TRD's failures after the header, phase by phase (42_tag_codec.md R172, R176), the end of its frame loop (R182), that it accepts laid-out tags
only, and the tag with padding written out again (section 2, the padding hazard).
-/

namespace Sys2Proof.Machine

open Sys2Proof.Spec

/-- Settles O18: what each of TRD's three phases accepted makes up the layout. -/
theorem trdAcceptsOnlyLaidOutTags : Obligations.TrdAcceptsOnlyLaidOutTags := fun _ _ h herr => exec_trd_success h herr

/-! ### The extended-header phase, one lemma per failing check -/

section
variable {s : State} {p : Nat}

theorem extFlagSet_of_flag (hf : ExtFlag s p) : ¬ s.extFlagSet (s.inByte (p + 5)) = false :=
  ne_false_of_eq_true ((extFlagSet_iff s p).2 hf)

theorem crcFlag_of_bit (hc : ExtCrcBit s p) : ¬ crcFlag (BitVec.ofNat 16 (be16 (s.memRead2 (p + 10 + 4)))) = false :=
  ne_false_of_eq_true ((crcFlag_iff s p).2 hc)

theorem State.readExtHeader_of_size_lt_ten (hf : ExtFlag s p) (h : tagSize s p < 10) :
    s.readExtHeader (s.inByte (p + 5)) (tagSize s p) (p + 10) = .error (.corruptTag (p + 10) 10) := by
  rw [State.readExtHeader, if_neg (extFlagSet_of_flag hf), if_pos h]

theorem State.readExtHeader_of_past_end (hf : ExtFlag s p) (hsize : 10 ≤ tagSize s p) (h : s.inLen.toNat < p + 20) :
    s.readExtHeader (s.inByte (p + 5)) (tagSize s p) (p + 10) = .error (.truncatedStream (p + 10) 10) := by
  rw [State.readExtHeader, if_neg (extFlagSet_of_flag hf), if_neg (Nat.not_lt.2 hsize), if_pos h]

theorem State.readExtHeader_of_crc_past_tag (hf : ExtFlag s p) (hsize : 10 ≤ tagSize s p) (hin : p + 20 ≤ s.inLen.toNat)
    (hc : ExtCrcBit s p) (h : tagSize s p < 14) :
    s.readExtHeader (s.inByte (p + 5)) (tagSize s p) (p + 10) = .error (.corruptTag (p + 20) 4) := by
  rw [State.readExtHeader, if_neg (extFlagSet_of_flag hf), if_neg (Nat.not_lt.2 hsize), if_neg (Nat.not_lt.2 hin)]
  exact (if_neg (crcFlag_of_bit hc)).trans (if_pos h)

theorem State.readExtHeader_of_crc_past_end (hf : ExtFlag s p) (hsize : 14 ≤ tagSize s p) (hin : p + 20 ≤ s.inLen.toNat)
    (hc : ExtCrcBit s p) (h : s.inLen.toNat < p + 24) :
    s.readExtHeader (s.inByte (p + 5)) (tagSize s p) (p + 10) = .error (.truncatedStream (p + 20) 4) := by
  rw [State.readExtHeader, if_neg (extFlagSet_of_flag hf), if_neg (by omega), if_neg (Nat.not_lt.2 hin)]
  exact (if_neg (crcFlag_of_bit hc)).trans ((if_neg (Nat.not_lt.2 hsize)).trans (if_pos h))

end

theorem State.trdStaged_of_ext_error {s : State} {e : CmdError} (hh : HasHeader s s.rptr.toNat)
    (h : s.readExtHeader (s.inByte (s.rptr.toNat + 5)) (tagSize s s.rptr.toNat) (s.rptr.toNat + 10) = .error e) :
    s.trdStaged = .error e := by
  simp only [State.trdStaged, State.readTagHeader_of_header hh, h]

/-- Settles O16, by the phase's checks in their order. -/
theorem trdExtendedHeaderErrors : Obligations.TrdExtendedHeaderErrors := by
  intro s p hh hf
  have hraise {e : CmdError} (he : s.readExtHeader (s.inByte (p + 5)) (tagSize s p) (p + 10) = .error e) :=
    exec_raised_of_staged_error (i := .trd) (State.trdStaged_of_ext_error hh he)
  exact ⟨fun hsize => hraise (State.readExtHeader_of_size_lt_ten hf hsize),
    fun ⟨hsize, hend⟩ => hraise (State.readExtHeader_of_past_end hf hsize hend),
    fun ⟨hsize, hin, hc, hcrc⟩ => hraise (State.readExtHeader_of_crc_past_tag hf hsize hin hc hcrc),
    fun ⟨hsize, hin, hc, hend⟩ => hraise (State.readExtHeader_of_crc_past_end hf hsize hin hc hend)⟩

/-! ### The frame loop, one lemma per failing check of an iteration -/

section
variable {s : State} {fuel q avail n : Nat}

theorem State.readFrames_of_tail_past_end (h0 : 0 < avail) (h10 : avail < 10) (h : s.inLen.toNat < q + min 4 avail) :
    s.readFrames (fuel + 1) q avail n = .error (.truncatedStream q (min 4 avail)) := by
  rw [State.readFrames, if_neg (by omega), if_pos h10, if_pos h]

theorem State.readFrames_of_tail_not_zero (h0 : 0 < avail) (h10 : avail < 10) (hin : q + min 4 avail ≤ s.inLen.toNat)
    (h : ∃ j < min 4 avail, s.inByte (q + j) ≠ 0) : s.readFrames (fuel + 1) q avail n = .error (.corruptTag q 10) := by
  have hz : ¬ allZero (s.memRead q (min 4 avail)) = true := by
    obtain ⟨j, hj, hne⟩ := h
    exact fun hz => hne ((allZero_memRead_iff s q _).1 hz j hj)
  rw [State.readFrames, if_neg (by omega), if_pos h10, if_neg (Nat.not_lt.2 hin), if_neg hz]

theorem State.readFrames_of_frame_header_past_end (h10 : 10 ≤ avail) (h : s.inLen.toNat < q + 10) :
    s.readFrames (fuel + 1) q avail n = .error (.truncatedStream q 10) := by
  rw [State.readFrames, if_neg (by omega), if_neg (by omega), if_pos h]

/-- The checks of an iteration that has a whole frame header before it, whose id is not zero. -/
theorem State.readFrames_of_frame_header (h10 : 10 ≤ avail) (hin : q + 10 ≤ s.inLen.toNat) (hid : inBytes s q 4 ≠ [0, 0, 0, 0]) :
    s.readFrames (fuel + 1) q avail n =
      if 10 + s.frameSizeAt q > avail then .error (.corruptTag q (10 + s.frameSizeAt q))
      else if q + 10 + s.frameSizeAt q > s.inLen.toNat then .error (.truncatedStream (q + 10) (s.frameSizeAt q))
      else if n ≥ s.cfg.maxFrames then .error (.capacityExceeded 1 (n + 1))
      else if s.frameSizeAt q > s.cfg.maxPayload then .error (.capacityExceeded 2 (s.frameSizeAt q))
      else (s.readFrames fuel (q + 10 + s.frameSizeAt q) (avail - (10 + s.frameSizeAt q)) (n + 1)).map
        (TagBody.prepend [s.frameAt q]) := by
  have hz : ¬ allZero (s.memRead4 q).toList = true := ne_true_of_eq_false ((memRead4_ne_zero_iff s q).2 hid)
  rw [State.readFrames, if_neg (by omega), if_neg (by omega), if_neg (by omega), if_neg hz]

end

/-- What the loop raises after a run of good frames, TRD raises. -/
theorem State.trdStaged_of_loop_error {s : State} {fs : List Frame} {e : CmdError} (hh : HasHeader s s.rptr.toNat)
    (hx : ExtFits s s.rptr.toNat) (hfs : FramesAt s (s.rptr.toNat + 10 + extLen s s.rptr.toNat) 0 fs)
    (hlt : extLen s s.rptr.toNat + extent fs < tagSize s s.rptr.toNat)
    (h : ∀ fuel, s.readFrames (fuel + 1) (framesEnd s s.rptr.toNat fs)
      (tagSize s s.rptr.toNat - extLen s s.rptr.toNat - extent fs) fs.length = .error e) :
    s.trdStaged = .error e := by
  have hcount := length_le_extent fs
  have hfuel : tagSize s s.rptr.toNat / 10 + 1 = tagSize s s.rptr.toNat / 10 - fs.length + 1 + fs.length := by omega
  have hloop : s.readFrames (tagSize s s.rptr.toNat / 10 + 1) (s.rptr.toNat + 10 + extLen s s.rptr.toNat)
      (tagSize s s.rptr.toNat - extLen s s.rptr.toNat) 0 = .error e := by
    have hrest := h (tagSize s s.rptr.toNat / 10 - fs.length)
    rw [framesEnd] at hrest
    rw [hfuel, State.readFrames_append hfs (by omega), Nat.zero_add, hrest]
    rfl
  simp only [State.trdStaged, State.readTagHeader_of_header hh, State.readExtHeader_of_fits hx, extRead, hloop]

/-- Settles O19: the run is read, and then the loop's checks follow in their order. -/
theorem trdFrameLoopErrors : Obligations.TrdFrameLoopErrors := by
  intro s fs p q avail fsz hh hx hfs hlt
  have hpos : 0 < avail := by omega
  have hraise {e : CmdError} (he : ∀ fuel, s.readFrames (fuel + 1) q avail fs.length = .error e) :=
    exec_raised_of_staged_error (i := .trd) (State.trdStaged_of_loop_error hh hx hfs hlt he)
  refine ⟨fun ⟨h10, hend⟩ => hraise fun _ => State.readFrames_of_tail_past_end hpos h10 hend,
    fun ⟨h10, hin, hne⟩ => hraise fun _ => State.readFrames_of_tail_not_zero hpos h10 hin hne,
    fun ⟨h10, hend⟩ => hraise fun _ => State.readFrames_of_frame_header_past_end h10 hend,
    fun ⟨h10, hin, hid⟩ => ?frame⟩
  case frame =>
    have hchecks (fuel : Nat) := State.readFrames_of_frame_header (fuel := fuel) (n := fs.length) h10 hin hid
    rw [← sizeIn_eq] at hchecks
    exact ⟨fun hbig => hraise fun _ => (hchecks _).trans (if_pos hbig),
      fun ⟨hle, hend⟩ => hraise fun _ => (hchecks _).trans ((if_neg (Nat.not_lt.2 hle)).trans (if_pos hend)),
      fun ⟨hle, hin, hn⟩ => hraise fun _ => (hchecks _).trans
        ((if_neg (Nat.not_lt.2 hle)).trans ((if_neg (Nat.not_lt.2 hin)).trans (if_pos hn))),
      fun ⟨hle, hin, hn, hpay⟩ => hraise fun _ => (hchecks _).trans ((if_neg (Nat.not_lt.2 hle)).trans
        ((if_neg (Nat.not_lt.2 hin)).trans ((if_neg (Nat.not_le.2 hn)).trans (if_pos hpay))))⟩

/-! ### The bound on the iterations -/

/-- An iteration that goes on takes 10 bytes of the tag at least, so any two counts above avail / 10 read alike. -/
theorem State.readFrames_eq_of_fuel {s : State} {fuel fuel' p avail n : Nat} (h : avail / 10 < fuel) (h' : avail / 10 < fuel') :
    s.readFrames fuel p avail n = s.readFrames fuel' p avail n := by
  induction fuel generalizing fuel' p avail n with
  | zero => omega
  | succ fuel ih =>
    cases fuel' with
    | zero => omega
    | succ fuel' =>
      by_cases hgo : 10 + s.frameSizeAt p ≤ avail
      · have hrest : s.readFrames fuel (p + 10 + s.frameSizeAt p) (avail - (10 + s.frameSizeAt p)) (n + 1) =
            s.readFrames fuel' (p + 10 + s.frameSizeAt p) (avail - (10 + s.frameSizeAt p)) (n + 1) :=
          ih (by omega) (by omega)
        rw [State.readFrames, State.readFrames, hrest]
      · have hstop : 10 + s.frameSizeAt p > avail := by omega
        rw [State.readFrames, State.readFrames, if_pos hstop, if_pos hstop]

/-- Settles O41: both counts are above avail / 10. -/
theorem frameLoopIterationsAreBounded : Obligations.FrameLoopIterationsAreBounded :=
  fun _ _ _ _ _ => State.readFrames_eq_of_fuel (by omega) (by omega)

/-! ### TWR after a TRD that found padding -/

/-- Settles O25: TWR writes the tag without its padding, and the declared size stands. -/
theorem paddedTagIsWrittenShorterThanDeclared : Obligations.PaddedTagIsWrittenShorterThanDeclared := by
  intro s t u h herr hpaddet hu huerr
  obtain ⟨fs, pad, htag, rfl⟩ := exec_trd_success h herr
  obtain ⟨v, hv, rfl⟩ := exec_success hu huerr
  obtain ⟨-, -, rfl⟩ := State.twrStaged_ok hv
  have hpad : 0 < pad := of_decide_eq_true hpaddet
  have hsize := htag.size
  have hlt := tagSize_lt s s.rptr.toNat
  have hlen := length_tagBytes_tagRead htag
  rw [tagRead_res1_toNat, tagRead_hdrSize_toNat]
  refine ⟨?written, by omega, rfl⟩
  case written =>
    simp only [State.commit_res0, State.setResults_res0, hlen]
    exact toNat_ofNat_of_lt (by omega)

end Sys2Proof.Machine
end

section
/-!
PROOFS. Rules 2 and 3 of the classifier on marked payloads, and where they part: the first null unit of a run (43_classifier.md R225 to R228, R233).
-/

namespace Sys2Proof.Machine

open Sys2Proof.Spec

/-! ### Runs of code units -/

theorem le16_eq_zero_iff (lo hi : Byte) : le16 lo hi = 0 ↔ lo = 0 ∧ hi = 0 := by
  simp only [BitVec.toNat_eq, le16_toNat, BitVec.ofNat_eq_ofNat, BitVec.toNat_zero]
  omega

/-- Rule 2 takes every pair, null or not. -/
theorem pairUnits_run (xs : List (Byte × Byte)) (ys : List Byte) :
    pairUnits ((xs.flatMap fun x => [x.1, x.2]) ++ ys) = (xs.map fun x => (x.2 ++ x.1 : BitVec 16)) ++ pairUnits ys := by
  induction xs with
  | nil => rfl
  | cons x xs ih =>
    simp only [List.flatMap_cons, List.cons_append, List.nil_append, pairUnits, ih, List.map_cons, append_eq_le16]

/-- Rule 3's scan stays inside a run while its units are not null. -/
theorem scanUnits_run {xs : List (Byte × Byte)} (ys : List Byte) (h : ∀ x ∈ xs, ¬ (x.1 = 0 ∧ x.2 = 0)) :
    scanUnits true ((xs.flatMap fun x => [x.1, x.2]) ++ ys) =
      (xs.map fun x => (x.2 ++ x.1 : BitVec 16)) ++ scanUnits true ys := by
  induction xs with
  | nil => rfl
  | cons x xs ih =>
    obtain ⟨hx, hxs⟩ := List.forall_mem_cons.1 h
    have hunit : ¬ le16 x.1 x.2 = 0 := mt (le16_eq_zero_iff x.1 x.2).1 hx
    simp only [List.flatMap_cons, List.cons_append, List.nil_append, scanUnits, if_neg hunit, ih hxs, List.map_cons,
      append_eq_le16]

theorem pairUnits_null (ys : List Byte) : pairUnits (0 :: 0 :: ys) = 0 :: pairUnits ys := rfl

/-- A null unit ends the run. -/
theorem scanUnits_null (ys : List Byte) : scanUnits true (0 :: 0 :: ys) = scanUnits false ys := by
  rw [scanUnits, if_pos ((le16_eq_zero_iff 0 0).2 ⟨rfl, rfl⟩)]

/-- A byte-order mark opens a run. -/
theorem scanUnits_bom (ys : List Byte) : scanUnits false (0xFF :: 0xFE :: ys) = scanUnits true ys := by
  rw [scanUnits, if_pos ⟨rfl, rfl⟩]

/-! ### The rule of a marked payload, and what it renders -/

section
variable {f : Frame} {rest : List Byte}

theorem Frame.clsRule_of_legacy (hid : f.id ≠ apicId) (h : f.data = 0x01 :: 0xFF :: 0xFE :: rest) : f.clsRule = 2 := by
  have hmark : legacyMarked f.data = true := h ▸ rfl
  rw [Frame.clsRule, if_neg hid, if_pos hmark]

theorem Frame.render_of_legacy (ph : List CodeUnit) (hid : f.id ≠ apicId) (h : f.data = 0x01 :: 0xFF :: 0xFE :: rest) :
    f.render ph = pairUnits rest := by
  rw [Frame.render, Frame.clsRule_of_legacy hid h, h]
  rfl

/-- The payload of rule 3's byte-order-mark cases: FF FE at its head, or after one leading 00. -/
def BomMarked (data rest : List Byte) : Prop := data = 0x00 :: 0xFF :: 0xFE :: rest ∨ data = 0xFF :: 0xFE :: rest

theorem not_legacyMarked_of_bomMarked {data : List Byte} (h : BomMarked data rest) : ¬ legacyMarked data = true := by
  rw [legacyMarked_iff]
  obtain rfl | rfl := h <;> simp

theorem skipMarker_of_bomMarked {data : List Byte} (h : BomMarked data rest) : skipMarker data = 0xFF :: 0xFE :: rest := by
  obtain rfl | rfl := h <;> rfl

theorem Frame.clsRule_of_bom (hid : f.id ≠ apicId) (hterm : f.term = 0) (h : BomMarked f.data rest) : f.clsRule = 3 := by
  rw [Frame.clsRule, if_neg hid, if_neg (not_legacyMarked_of_bomMarked h), if_pos hterm]

theorem Frame.render_of_bom (ph : List CodeUnit) (hid : f.id ≠ apicId) (hterm : f.term = 0) (h : BomMarked f.data rest) :
    f.render ph = scanUnits true rest := by
  rw [Frame.render, Frame.clsRule_of_bom hid hterm h, skipMarker_of_bomMarked h, scanUnits_bom]
  rfl

end

/-! ### CLS -/

/-- A successful CLS reports the rule of the frame it names and leaves in COUT what that rule renders (R222). -/
theorem exec_cls_of_frame {s t : State} {k : Nat} {f : Frame} (hf : s.frames[k]? = some f) (h : exec (.cls k) s = .next t)
    (herr : t.status.err = 0) :
    t.res1 = BitVec.ofNat 32 f.clsRule ∧ CoutWritten s t (f.render s.cfg.apicPlaceholder) := by
  obtain ⟨u, hu, rfl⟩ := exec_success h herr
  obtain ⟨g, hg, hcls⟩ := State.withFrame_ok hu
  obtain rfl : f = g := Option.some.inj (hf.symm.trans hg)
  obtain ⟨-, rfl⟩ := State.clsFrame_ok hcls
  exact ⟨rfl, coutWritten_replaceCout s _⟩

theorem eq_append_of_take_eq {data pre : List Byte} {n : Nat} (h : data.take n = pre) : data = pre ++ data.drop n := by
  rw [← h, List.take_append_drop]

/-- Settles O29: the marker picks the rule, and the rules agree on a run up to its first null unit. -/
theorem legacyMarkerAndBomScanDifferAtNullUnits : Obligations.LegacyMarkerAndBomScanDifferAtNullUnits := by
  intro s t k f hf hid h herr
  obtain ⟨hrule, hcout⟩ := exec_cls_of_frame hf h herr
  refine ⟨fun hmark => ?legacyRule, fun hmark hterm => ?bomRule, fun xs ys hxs => ?units⟩
  case legacyRule =>
    rw [hrule, Frame.clsRule_of_legacy hid (eq_append_of_take_eq hmark)]
    rfl
  case bomRule =>
    have hbom : ∃ rest, BomMarked f.data rest := by
      obtain hmark | hmark := hmark
      · exact ⟨_, .inl (eq_append_of_take_eq hmark)⟩
      · exact ⟨_, .inr (eq_append_of_take_eq hmark)⟩
    obtain ⟨rest, hrest⟩ := hbom
    rw [hrule, Frame.clsRule_of_bom hid hterm hrest]
    rfl
  case units =>
    dsimp only
    simp only [List.append_assoc, List.cons_append, List.nil_append]
    refine ⟨fun hdata => ?legacy, fun hdata hterm => ?bom⟩
    case legacy =>
      rw [Frame.render_of_legacy _ hid hdata, pairUnits_run] at hcout
      exact hcout
    case bom =>
      rw [Frame.render_of_bom _ hid hterm hdata, scanUnits_run _ hxs] at hcout
      exact scanUnits_null ys ▸ hcout

end Sys2Proof.Machine
end

section
/-!
PROOFS. STATUS: which flags a command writes (10_state.md R46), and the sticky summary, which only the reset signal clears (R22).
-/

namespace Sys2Proof.Machine

open Sys2Proof.Spec

/-! ### Commands -/

theorem exec_err_le {i : Instr} {s t : State} (h : exec i s = .next t) : t.status.err.toNat ≤ 6 := by
  obtain ⟨-, -, -, herr⟩ | ⟨e, -, rfl, -⟩ := exec_cases h
  · rw [herr]
    exact Nat.zero_le _
  · exact e.code_range.2

/-- A command that succeeds writes ERR, and PADDET when it is TRD or TCLR. -/
theorem exec_success_errs {i : Instr} {s t : State} (h : exec i s = .next t) (herr : t.status.err = 0) :
    t.status.errs = s.status.errs := by
  cases exec_success_kind h herr with
  | results _ _ ht => exact ht ▸ rfl
  | addFrame _ _ _ _ _ _ _ ht => exact ht ▸ rfl
  | append _ _ _ _ ht => exact ht ▸ rfl
  | render _ _ _ _ _ _ ht => exact ht ▸ rfl
  | readTag _ _ _ _ ht => exact ht ▸ rfl
  | clear _ ht => exact ht ▸ rfl

theorem exec_success_paddet {i : Instr} {s t : State} (h : exec i s = .next t) (herr : t.status.err = 0)
    (hi : i ≠ .trd ∧ i ≠ .tclr) : t.status.paddet = s.status.paddet := by
  cases exec_success_kind h herr with
  | results _ _ ht => exact ht ▸ rfl
  | addFrame _ _ _ _ _ _ _ ht => exact ht ▸ rfl
  | append _ _ _ _ ht => exact ht ▸ rfl
  | render _ _ _ _ _ _ ht => exact ht ▸ rfl
  | readTag _ _ htrd => exact absurd htrd hi.1
  | clear htclr => exact absurd htclr hi.2

theorem exec_failure_paddet {i : Instr} {s t : State} (h : exec i s = .next t) (herr : t.status.err ≠ 0) :
    t.status.paddet = s.status.paddet := by
  obtain ⟨e, -, rfl⟩ := exec_failure h herr
  rfl

/-- ERRS is set by the codes 2 to 6, and no command clears it. -/
theorem exec_errs {i : Instr} {s t : State} (h : exec i s = .next t) :
    t.status.errs = (s.status.errs || decide (2 ≤ t.status.err.toNat)) := by
  by_cases herr : t.status.err = 0
  · rw [exec_success_errs h herr, herr]
    exact (Bool.or_false _).symm
  · obtain ⟨e, -, rfl⟩ := exec_failure h herr
    rfl

/-- Padding was found exactly when the bytes before it, RES1, are fewer than the size. -/
theorem tagRead_paddet_iff {s : State} {p : Nat} {fs : List Frame} {pad : Nat} (h : TagAt s p fs pad) :
    (tagRead s p fs pad).status.paddet = true ↔ (tagRead s p fs pad).res1.toNat < (tagRead s p fs pad).hdrSize.toNat := by
  have hsize := h.size
  rw [tagRead_status, decide_eq_true_iff, tagRead_res1_toNat, tagRead_hdrSize_toNat]
  omega

/-- Settles O31, flag by flag. -/
theorem statusFlagsFollowTheSummary : Obligations.StatusFlagsFollowTheSummary := by
  refine ⟨fun i s t h => ?command, fun s t h herr => ?trd, fun s w h hop => ?reserved⟩
  case command =>
    refine ⟨(exec_keeps h).busy, exec_err_le h, exec_errs h, fun hi => ?paddet, exec_failure_paddet h, fun hi => ?tclr⟩
    case paddet =>
      by_cases herr : t.status.err = 0
      · exact exec_success_paddet h herr hi
      · exact exec_failure_paddet h herr
    case tclr =>
      subst hi
      exact Host.Outcome.next.inj ((exec_tclr s).symm.trans h) ▸ ⟨rfl, rfl⟩
  case trd =>
    obtain ⟨fs, pad, htag, rfl⟩ := exec_trd_success h herr
    exact tagRead_paddet_iff htag
  case reserved =>
    have hfield : opcodeField w = 0 ∨ 9 ≤ opcodeField w := by
      rw [← byteOf_zero_toNat]
      exact hop.imp_left (congrArg BitVec.toNat)
    exact ⟨_, step_of_reservedOpcode h hfield, rfl, Bool.or_true _, rfl⟩

/-! ### Steps -/

/-- The fields a host write of a register can change; the parameters, STATUS, the results, the store and the memories are none of them. -/
theorem State.writeReg_frame (s : State) (n : Nat) (v : Word) :
    s.writeReg n v = { s with
      arg0 := (s.writeReg n v).arg0
      rptr := (s.writeReg n v).rptr
      inLen := (s.writeReg n v).inLen
      outLen := (s.writeReg n v).outLen
      hdr0 := (s.writeReg n v).hdr0
      hdrSize := (s.writeReg n v).hdrSize
      extHsize := (s.writeReg n v).extHsize
      extCtrl := (s.writeReg n v).extCtrl
      extPad := (s.writeReg n v).extPad
      extCrc := (s.writeReg n v).extCrc } := by
  unfold State.writeReg
  split
  case h_4 =>
    unfold State.writeOutLen
    split <;> rfl
  all_goals rfl

@[simp] theorem State.writeReg_cfg (s : State) (n : Nat) (v : Word) : (s.writeReg n v).cfg = s.cfg := by
  rw [s.writeReg_frame n v]

@[simp] theorem State.writeReg_status (s : State) (n : Nat) (v : Word) : (s.writeReg n v).status = s.status := by
  rw [s.writeReg_frame n v]

/-- A host write of IN changes nothing but IN. -/
theorem State.hostWriteIn_frame (s : State) (a : Nat) (b : Byte) :
    s.hostWriteIn a b = { s with inMem := (s.hostWriteIn a b).inMem } := by
  unfold State.hostWriteIn
  split <;> rfl

@[simp] theorem State.hostWriteIn_cfg (s : State) (a : Nat) (b : Byte) : (s.hostWriteIn a b).cfg = s.cfg := by
  rw [s.hostWriteIn_frame a b]

@[simp] theorem State.hostWriteIn_status (s : State) (a : Nat) (b : Byte) : (s.hostWriteIn a b).status = s.status := by
  rw [s.hostWriteIn_frame a b]

/-- A step that is no reset leaves STATUS alone, unless it issues a word. -/
theorem step_status {s t : State} (h : step s = .next t) (hr : s.nextAccess ≠ some .resetSignal) :
    t.status = s.status ∨ (∃ w i, exec i (s.issued w) = .next t) ∨ ∃ w e, t = (s.issued w).raise e := by
  cases step_kind h with
  | idle _ ht => exact .inl (congrArg State.status ht :)
  | reset hreset => exact absurd hreset hr
  | command w i _ _ ht => exact .inr (.inl ⟨w, i, ht⟩)
  | illegal w r _ _ ht => exact .inr (.inr ⟨w, _, ht⟩)
  | register n v _ _ _ ht => exact .inl (ht ▸ s.advanceHost.writeReg_status n v)
  | input a b _ _ ht => exact .inl (ht ▸ s.advanceHost.hostWriteIn_status a b)
  | frameSet _ _ _ _ _ _ ht => exact .inl (congrArg State.status ht :)
  | frameAppend _ _ _ _ _ ht => exact .inl (congrArg State.status ht :)
  | hostOnly _ _ ht => exact .inl (congrArg State.status ht :)

/-- Settles O32: commands and errors only ever add to ERRS. -/
theorem onlyResetClearsTheStickySummary : Obligations.OnlyResetClearsTheStickySummary := by
  intro s t h hset hr
  obtain hst | ⟨w, i, hi⟩ | ⟨w, e, rfl⟩ := step_status h hr
  · rw [hst, hset]
  · rw [exec_errs hi, State.issued_status, hset, Bool.true_or]
  · rw [State.raise_status, Status.afterError_errs, State.issued_status, hset, Bool.true_or]

/-- Settles O40: every kind of step keeps the parameters, the reset signal too. -/
theorem noStepChangesAParameter : Obligations.NoStepChangesAParameter := by
  intro s t h
  cases step_kind h with
  | idle _ ht => exact (congrArg State.cfg ht :)
  | reset _ ht => exact (congrArg State.cfg ht :)
  | command w i _ _ ht => exact (exec_keeps ht).cfg
  | illegal w r _ _ ht => exact (congrArg State.cfg ht :)
  | register n v _ _ _ ht => exact ht ▸ s.advanceHost.writeReg_cfg n v
  | input a b _ _ ht => exact ht ▸ s.advanceHost.hostWriteIn_cfg a b
  | frameSet _ _ _ _ _ _ ht => exact (congrArg State.cfg ht :)
  | frameAppend _ _ _ _ _ ht => exact (congrArg State.cfg ht :)
  | hostOnly _ _ ht => exact (congrArg State.cfg ht :)

end Sys2Proof.Machine
end

section
/-!
PROOFS. Commands and the memories: they end in a next state, never write IN (20_memory.md R61, R72), only append to OUT (R62), and keep COUT until the
next successful CLS (70_reset_and_hazards.md R301).
-/

namespace Sys2Proof.Machine

open Sys2Proof.Spec

/-- Settles O33: an error of a command is a next state too. -/
theorem everyCommandEndsInANextState : Obligations.EveryCommandEndsInANextState := exec_ends_in_next

/-- Settles O34: the fields no command writes, and what IN reads as is told by two of them. -/
theorem commandsNeverWriteInput : Obligations.CommandsNeverWriteInput := by
  intro i s t h
  obtain ⟨hcfg, hcmd, -, harg0, hlen, hmem, hprog, hpos, hseen, hresets, hreads⟩ := exec_keeps h
  exact ⟨hmem, hlen, harg0, hcmd, hcfg, hprog, hpos, hseen, hresets, hreads, State.inByte_congr hmem hresets⟩

/-! ### OUT -/

/-- An append within the capacity raises OUT_LEN by its length: the parameters leave no room to wrap. -/
theorem State.appendOut_outLen_toNat {s : State} {bs : List Byte} (hc : s.cfg.Wf)
    (hroom : s.outLen.toNat + bs.length ≤ s.cfg.outCap) : (s.appendOut bs).outLen.toNat = s.outLen.toNat + bs.length := by
  have hcap := hc.outCap_le
  exact toNat_ofNat_of_lt (by omega)

/-- What a command does to OUT: nothing, or an append within the capacity. -/
theorem exec_out_cases {i : Instr} {s t : State} (h : exec i s = .next t) :
    (t.outLen = s.outLen ∧ t.outMem = s.outMem) ∨
      ∃ bs, s.outLen.toNat + bs.length ≤ s.cfg.outCap ∧ t.outLen = (s.appendOut bs).outLen ∧
        t.outMem = (s.appendOut bs).outMem := by
  obtain hkind | ⟨e, rfl⟩ := exec_kind h
  · cases hkind with
    | results _ _ ht => exact .inl (ht ▸ ⟨rfl, rfl⟩)
    | addFrame _ _ _ _ _ _ _ ht => exact .inl (ht ▸ ⟨rfl, rfl⟩)
    | append bs _ _ hroom ht => exact .inr ⟨bs, hroom, ht ▸ ⟨rfl, rfl⟩⟩
    | render _ _ _ _ _ _ ht => exact .inl (ht ▸ ⟨rfl, rfl⟩)
    | readTag _ _ _ _ ht => exact .inl (ht ▸ ⟨rfl, rfl⟩)
    | clear _ ht => exact .inl (ht ▸ ⟨rfl, rfl⟩)
  · exact .inl ⟨rfl, rfl⟩

/-- Settles O36: an append writes from OUT_LEN up. -/
theorem commandsOnlyAppendToOutput : Obligations.CommandsOnlyAppendToOutput := by
  intro i s t hc h
  obtain ⟨hlen, hmem⟩ | ⟨bs, hroom, hlen, hmem⟩ := exec_out_cases h
  · refine ⟨Nat.le_of_eq (congrArg BitVec.toNat hlen.symm), fun a _ => ?_⟩
    rw [State.outByte?, State.outByte?, hmem]
  · refine ⟨?_, fun a ha => ?_⟩
    · rw [hlen, State.appendOut_outLen_toNat hc hroom]
      exact Nat.le_add_right _ _
    · rw [State.outByte?, hmem]
      exact (outWritten_appendOut s bs).2 a (.inl ha)

/-! ### COUT -/

/-- Settles O37: of the kinds of success only CLS's writes COUT, and an error writes no memory. -/
theorem classifierOutputIsKeptUntilTheNextCls : Obligations.ClassifierOutputIsKeptUntilTheNextCls := by
  intro i s t h hcls
  by_cases herr : t.status.err = 0
  · cases exec_success_kind h herr with
    | results _ _ ht => exact ht ▸ ⟨rfl, fun _ => rfl⟩
    | addFrame _ _ _ _ _ _ _ ht => exact ht ▸ ⟨rfl, fun _ => rfl⟩
    | append _ _ _ _ ht => exact ht ▸ ⟨rfl, fun _ => rfl⟩
    | render k _ _ _ hi => exact absurd herr (hcls k hi)
    | readTag _ _ _ _ ht => exact ht ▸ ⟨rfl, fun _ => rfl⟩
    | clear _ ht => exact ht ▸ ⟨rfl, fun _ => rfl⟩
  · obtain ⟨e, -, rfl⟩ := exec_failure h herr
    exact ⟨rfl, fun _ => rfl⟩

end Sys2Proof.Machine
end

section
/-!
PROOFS. IN past IN_LEN is never read (20_memory.md R61): every command runs alike in two states that differ only there.
-/

namespace Sys2Proof.Machine

/-- The state with other contents of IN: other cells listed, other free values in the unlisted ones. -/
def State.withInput (s : State) (m : List Host.Cell) (r : Nat) : State := { s with inMem := m, resets := r }

/-- A failing check is the same check on both sides, and what follows it runs alike. -/
theorem ite_error_eq_map {α β ε : Type} {c c' : Prop} [Decidable c] [Decidable c'] {e : ε} {x : Except ε β} {y : Except ε α}
    {g : α → β} (hc : c ↔ c') (h : ¬ c' → x = y.map g) :
    (if c then .error e else x) = (if c' then .error e else y).map g := by
  by_cases hc' : c'
  · rw [if_pos (hc.2 hc'), if_pos hc']
    rfl
  · rw [if_neg (mt hc.1 hc'), if_neg hc']
    exact h hc'

/-- What follows a check may use that it passed. -/
theorem ite_congr_else {α : Type} {c : Prop} [Decidable c] {e x y : α} (h : ¬ c → x = y) :
    (if c then e else x) = if c then e else y :=
  ite_congr rfl (fun _ => rfl) h

/-! ### Commands that read no IN -/

section
variable (s : State) (m : List Host.Cell) (r : Nat)

theorem State.tryAppendOut_withInput (bs : List Byte) :
    (s.withInput m r).tryAppendOut bs = (s.tryAppendOut bs).map (·.withInput m r) :=
  ite_error_eq_map Iff.rfl fun _ => rfl

theorem State.fwrFrame_withInput (f : Frame) : (s.withInput m r).fwrFrame f = (s.fwrFrame f).map (·.withInput m r) := by
  rw [State.fwrFrame, State.fwrFrame, State.tryAppendOut_withInput]
  cases s.tryAppendOut f.bytes <;> rfl

theorem State.clsFrame_withInput (f : Frame) : (s.withInput m r).clsFrame f = (s.clsFrame f).map (·.withInput m r) :=
  ite_error_eq_map Iff.rfl fun _ => rfl

theorem State.twrStaged_withInput : (s.withInput m r).twrStaged = s.twrStaged.map (·.withInput m r) := by
  refine ite_error_eq_map Iff.rfl fun _ => ?_
  have happend : (s.withInput m r).tryAppendOut (s.withInput m r).tagBytes = _ := s.tryAppendOut_withInput m r s.tagBytes
  rw [happend]
  cases s.tryAppendOut s.tagBytes <;> rfl

theorem State.ssencStaged_withInput : (s.withInput m r).ssencStaged = s.ssencStaged.map (·.withInput m r) :=
  ite_error_eq_map Iff.rfl fun _ => rfl

/-- The frame a command names is no part of IN, so what it does with the frame decides. -/
theorem State.withFrame_withInput (k : Nat) (w : Word) {go go' : Frame → Except CmdError State}
    (h : ∀ f, go' f = (go f).map (·.withInput m r)) :
    (s.withInput m r).withFrame k w go' = (s.withFrame k w go).map (·.withInput m r) := by
  cases hf : s.frames[k]? with
  | none =>
    have hk := List.getElem?_eq_none_iff.1 hf
    rw [State.withFrame_of_none (s := s.withInput m r) hk, State.withFrame_of_none hk]
    rfl
  | some f => rw [State.withFrame_of_some (s := s.withInput m r) hf, State.withFrame_of_some hf, h]

end

/-! ### Reads below IN_LEN -/

section
variable {s : State} {m : List Host.Cell} {r : Nat}
variable (h : ∀ a, a < s.inLen.toNat → (s.withInput m r).inByte a = s.inByte a)
include h

theorem State.memRead_withInput {a n : Nat} (hin : a + n ≤ s.inLen.toNat) : (s.withInput m r).memRead a n = s.memRead a n := by
  rw [State.memRead_eq_map, State.memRead_eq_map]
  refine List.map_congr_left fun j hj => h _ ?_
  have hj := List.mem_range.1 hj
  omega

theorem State.memRead4_withInput {a : Nat} (hin : a + 4 ≤ s.inLen.toNat) : (s.withInput m r).memRead4 a = s.memRead4 a := by
  simp only [State.memRead4, h a (by omega), h (a + 1) (by omega), h (a + 2) (by omega), h (a + 3) (by omega)]

theorem State.memRead2_withInput {a : Nat} (hin : a + 2 ≤ s.inLen.toNat) : (s.withInput m r).memRead2 a = s.memRead2 a := by
  simp only [State.memRead2, h a (by omega), h (a + 1) (by omega)]

theorem State.frameSizeAt_withInput {p : Nat} (hin : p + 10 ≤ s.inLen.toNat) :
    (s.withInput m r).frameSizeAt p = s.frameSizeAt p := by
  rw [State.frameSizeAt, State.frameSizeAt, State.memRead4_withInput h (by omega)]

theorem State.frameAt_withInput {p : Nat} (hin : p + 10 + s.frameSizeAt p ≤ s.inLen.toNat) :
    (s.withInput m r).frameAt p = s.frameAt p := by
  simp only [State.frameAt, State.frameSizeAt_withInput h (p := p) (by omega), State.memRead4_withInput h (a := p) (by omega),
    State.memRead2_withInput h (a := p + 8) (by omega), State.memRead_withInput h hin]

/-! ### FRD, and TRD phase by phase -/

theorem State.frdStaged_withInput : (s.withInput m r).frdStaged = s.frdStaged.map (·.withInput m r) := by
  refine ite_error_eq_map Iff.rfl fun hhead => ?_
  have hsize : (s.withInput m r).frameSizeAt (s.withInput m r).rptr.toNat = _ :=
    State.frameSizeAt_withInput h (p := s.rptr.toNat) (by omega)
  rw [hsize]
  refine ite_error_eq_map Iff.rfl fun hend => ite_error_eq_map Iff.rfl fun _ => ite_error_eq_map Iff.rfl fun _ => ?_
  have hframe : (s.withInput m r).frameAt (s.withInput m r).rptr.toNat = _ :=
    State.frameAt_withInput h (p := s.rptr.toNat) (by omega)
  rw [hframe]
  rfl

theorem State.readTagHeader_withInput (p : Nat) : (s.withInput m r).readTagHeader p = s.readTagHeader p := by
  have hid : (p + 3 ≤ s.inLen.toNat ∧ (s.withInput m r).memRead p 3 = id3Bytes) ↔
      (p + 3 ≤ s.inLen.toNat ∧ s.memRead p 3 = id3Bytes) :=
    and_congr_right fun hlen => by rw [State.memRead_withInput h hlen]
  refine ite_congr (congrArg Not (propext hid)) (fun _ => rfl) fun _ => ite_congr_else fun hend => ?_
  have hend' : p + 10 ≤ s.inLen.toNat := Nat.not_lt.1 hend
  simp only [h (p + 3) (by omega), h (p + 4) (by omega), h (p + 5) (by omega), State.memRead4_withInput h (a := p + 6) (by omega)]

theorem State.readExtHeader_withInput (hflags : Byte) (size p : Nat) :
    (s.withInput m r).readExtHeader hflags size p = s.readExtHeader hflags size p := by
  refine ite_congr_else fun _ => ite_congr_else fun _ => ite_congr_else fun hend => ?_
  have hend' : p + 10 ≤ s.inLen.toNat := Nat.not_lt.1 hend
  rw [State.memRead2_withInput h (a := p + 4) (by omega), State.memRead4_withInput h (a := p) (by omega),
    State.memRead4_withInput h (a := p + 6) (by omega)]
  refine ite_congr_else fun _ => ite_congr_else fun _ => ite_congr_else fun hcrc => ?_
  rw [State.memRead4_withInput h (a := p + 10) (Nat.not_lt.1 hcrc)]

theorem State.readFrames_withInput (fuel p avail n : Nat) :
    (s.withInput m r).readFrames fuel p avail n = s.readFrames fuel p avail n := by
  induction fuel generalizing p avail n with
  | zero => rfl
  | succ fuel ih =>
    refine ite_congr_else fun _ => ite_congr rfl (fun _ => ?tail) fun _ =>
      ite_congr_else fun hhead => ?frame
    case tail =>
      refine ite_congr_else fun hend => ?_
      rw [State.memRead_withInput h (Nat.not_lt.1 hend)]
    case frame =>
      have hhead' : p + 10 ≤ s.inLen.toNat := Nat.not_lt.1 hhead
      rw [State.memRead4_withInput h (a := p) (by omega), State.frameSizeAt_withInput h hhead']
      refine ite_congr_else fun _ => ite_congr_else fun _ => ite_congr_else fun hend => ite_congr_else fun _ =>
        ite_congr_else fun _ => ?_
      rw [State.frameAt_withInput h (Nat.not_lt.1 hend), ih]

theorem State.trdStaged_withInput : (s.withInput m r).trdStaged = s.trdStaged.map (·.withInput m r) := by
  have hhd : (s.withInput m r).readTagHeader (s.withInput m r).rptr.toNat = _ := State.readTagHeader_withInput h s.rptr.toNat
  simp only [State.trdStaged, hhd]
  cases s.readTagHeader s.rptr.toNat with
  | error e => rfl
  | ok hd =>
    have hx : (s.withInput m r).readExtHeader hd.hdr0.hflags hd.size ((s.withInput m r).rptr.toNat + 10) = _ :=
      State.readExtHeader_withInput h hd.hdr0.hflags hd.size (s.rptr.toNat + 10)
    simp only [hx]
    cases s.readExtHeader hd.hdr0.hflags hd.size (s.rptr.toNat + 10) with
    | error e => rfl
    | ok x =>
      have hb : (s.withInput m r).readFrames (hd.size / 10 + 1) ((s.withInput m r).rptr.toNat + 10 + x.len) (hd.size - x.len) 0 = _ :=
        State.readFrames_withInput h (hd.size / 10 + 1) (s.rptr.toNat + 10 + x.len) (hd.size - x.len) 0
      simp only [hb]
      cases s.readFrames (hd.size / 10 + 1) (s.rptr.toNat + 10 + x.len) (hd.size - x.len) 0 <;> rfl

/-! ### Every command -/

theorem State.staged_withInput (i : Instr) : (s.withInput m r).staged i = (s.staged i).map (·.withInput m r) := by
  cases i with
  | ssdec => rfl
  | ssenc => exact s.ssencStaged_withInput m r
  | frd => exact State.frdStaged_withInput h
  | fwr k => exact s.withFrame_withInput m r k _ (s.fwrFrame_withInput m r)
  | trd => exact State.trdStaged_withInput h
  | twr => exact s.twrStaged_withInput m r
  | cls k => exact s.withFrame_withInput m r k _ (s.clsFrame_withInput m r)
  | tclr => rfl

theorem exec_withInput {i : Instr} {t : State} (ht : exec i s = .next t) :
    exec i (s.withInput m r) = .next (t.withInput m r) := by
  have hstaged := State.staged_withInput h i
  obtain ⟨u, hu, rfl, -⟩ | ⟨e, he, rfl, -⟩ := exec_cases ht
  · rw [hu] at hstaged
    exact exec_of_staged_ok hstaged
  · rw [he] at hstaged
    exact exec_of_staged_error hstaged

end

/-- Settles O35: each command stages alike in the two states, its reads being behind the checks against IN_LEN. -/
theorem inputBeyondItsLengthIsNeverRead : Obligations.InputBeyondItsLengthIsNeverRead := fun _ _ _ _ h _ ht => exec_withInput h ht

end Sys2Proof.Machine
end

section
/-!
PROOFS. The register map at the host port (10_state.md R20 to R36): the places of the fields in the registers that have some, what a host write leaves in each
register, and the registers after the reset signal (70_reset_and_hazards.md R290).
-/

namespace Sys2Proof.Machine

open Sys2Proof.Spec

/-! ### Fields in a register -/

section
variable {w : Word} {start : Nat}

theorem getLsbD_eq_of_div {b : Bool} (h : w.toNat / 2 ^ start % 2 = b.toNat) : w.getLsbD start = b := by
  rw [BitVec.getLsbD, Nat.testBit_eq_decide_div_mod_eq, h]
  cases b <;> rfl

theorem extractLsb'_eq_of_div {len : Nat} {x : BitVec len} (h : w.toNat / 2 ^ start % 2 ^ len = x.toNat) :
    w.extractLsb' start len = x := by
  apply BitVec.eq_of_toNat_eq
  rw [BitVec.extractLsb'_toNat, Nat.shiftRight_eq_div_pow, h]

theorem extractLsb'_eq_zero_of_div {len : Nat} (h : w.toNat / 2 ^ start % 2 ^ len = 0) : w.extractLsb' start len = 0 :=
  extractLsb'_eq_of_div h

end

theorem Status.word_toNat (st : Status) :
    st.word.toNat = st.err.toNat + 2 ^ 4 * st.paddet.toNat + 2 ^ 5 * st.errs.toNat + 2 ^ 6 * st.busy.toNat := by
  have herr := st.err.isLt
  have hpaddet := st.paddet.toNat_le
  have herrs := st.errs.toNat_le
  have hbusy := st.busy.toNat_le
  exact toNat_ofNat_of_lt (by omega)

theorem Hdr0.word_toNat (x : Hdr0) :
    x.word.toNat = x.verMajor.toNat + 2 ^ 8 * x.verMinor.toNat + 2 ^ 16 * x.hflags.toNat := by
  have hmajor := x.verMajor.isLt
  have hminor := x.verMinor.isLt
  have hflags := x.hflags.isLt
  exact toNat_ofNat_of_lt (by omega)

theorem ExtCtrl.word_toNat (x : ExtCtrl) : x.word.toNat = x.flags.toNat + 2 ^ 16 * x.present.toNat := by
  have hflags := x.flags.isLt
  have hpresent := x.present.toNat_le
  exact toNat_ofNat_of_lt (by omega)

/-- Settles O51: each field stands clear of the others, so dividing by its place gives it back. -/
theorem statusRegisterLayout : Obligations.StatusRegisterLayout := by
  intro s w
  have hw : w.toNat = _ := s.status.word_toNat
  have herr := s.status.err.isLt
  have hpaddet := s.status.paddet.toNat_le
  have herrs := s.status.errs.toNat_le
  have hbusy := s.status.busy.toNat_le
  refine ⟨extractLsb'_eq_of_div ?_, getLsbD_eq_of_div ?_, getLsbD_eq_of_div ?_, getLsbD_eq_of_div ?_,
    extractLsb'_eq_zero_of_div ?_⟩
  all_goals
    rw [hw]
    omega

theorem Hdr0.byteOf_word (x : Hdr0) :
    byteOf x.word 0 = x.verMajor ∧ byteOf x.word 1 = x.verMinor ∧ byteOf x.word 2 = x.hflags ∧ byteOf x.word 3 = 0 := by
  have hw := x.word_toNat
  have hmajor := x.verMajor.isLt
  have hminor := x.verMinor.isLt
  have hflags := x.hflags.isLt
  refine ⟨extractLsb'_eq_of_div ?_, extractLsb'_eq_of_div ?_, extractLsb'_eq_of_div ?_, extractLsb'_eq_zero_of_div ?_⟩
  all_goals
    rw [hw]
    omega

theorem ExtCtrl.word_fields (x : ExtCtrl) :
    x.word.extractLsb' 0 16 = x.flags ∧ x.word.getLsbD 16 = x.present ∧ x.word.extractLsb' 17 15 = 0 := by
  have hw := x.word_toNat
  have hflags := x.flags.isLt
  have hpresent := x.present.toNat_le
  refine ⟨extractLsb'_eq_of_div ?_, getLsbD_eq_of_div ?_, extractLsb'_eq_zero_of_div ?_⟩
  all_goals
    rw [hw]
    omega

/-- Settles O45: the plain registers are the fields themselves, and HDR0 and EXT_CTRL put theirs side by side. -/
theorem registerMapNamesTheRegisters : Obligations.RegisterMapNamesTheRegisters := fun s =>
  ⟨rfl, rfl, rfl, rfl, rfl, rfl, rfl, rfl, toNat_ofNat_of_lt, s.hdr0.byteOf_word, rfl, rfl, s.extCtrl.word_fields, rfl, rfl⟩

/-! ### Host reads and ignored writes -/

/-- Settles O46: the read leaves its value with the host. -/
theorem hostReadsOfRegistersReturnTheRegister : Obligations.HostReadsOfRegistersReturnTheRegister := fun _ _ => step_of_readReg

theorem State.writeReg_of_readOnly (s : State) {n : Nat} (v : Word) (hn : n = 1 ∨ n = 3 ∨ n = 4 ∨ n = 8 ∨ n = 9) :
    s.writeReg n v = s := by
  obtain rfl | rfl | rfl | rfl | rfl := hn <;> rfl

/-- Settles O49: the register write has no effect, so only the host moves. -/
theorem readOnlyRegistersIgnoreHostWrites : Obligations.ReadOnlyRegistersIgnoreHostWrites := by
  intro s n v hn hb h
  have hcmd : n ≠ 0 := by omega
  rw [step_of_writeReg hb hcmd h, State.writeReg_of_readOnly _ v hn]

/-! ### The clamped registers -/

theorem State.writeOutLen_eq (s : State) (v : Word) :
    s.writeOutLen v = { s with outLen := if v.toNat ≤ s.outLen.toNat then v else s.outLen } := by
  unfold State.writeOutLen
  split <;> rfl

/-- Settles O44, register by register: a minimum of register values, or with IN_CAP, fits a register. -/
theorem hostWritesOfStreamRegistersAreClamped : Obligations.HostWritesOfStreamRegistersAreClamped := by
  intro s v hb
  have hv := v.isLt
  refine ⟨fun h => ⟨_, step_of_writeReg hb (by decide) h, ?rptr, rfl⟩,
    fun h hc => ⟨_, step_of_writeReg hb (by decide) h, ?inLen, ?cut, rfl⟩,
    fun h => ⟨_, (step_of_writeReg hb (by decide) h).trans (congrArg _ (s.advanceHost.writeOutLen_eq v)), rfl, rfl⟩⟩
  case rptr => exact toNat_ofNat_of_lt (by omega)
  case inLen => exact toNat_ofNat_of_lt (by omega)
  case cut =>
    have hlen : (s.advanceHost.writeReg 6 v).inLen.toNat = min v.toNat s.cfg.inCap := toNat_ofNat_of_lt (by omega)
    rw [hlen]
    exact toNat_ofNat_of_lt (by omega)

/-! ### The registers that read back -/

theorem Hdr0.word_ofWord (v : Word) : (Hdr0.ofWord v).word = v &&& 0x00FFFFFF := by
  have hmask : v.toNat &&& 0x00FFFFFF = v.toNat % 2 ^ 24 := Nat.and_two_pow_sub_one_eq_mod _ 24
  apply BitVec.eq_of_toNat_eq
  rw [Hdr0.word_toNat, BitVec.toNat_and]
  refine Eq.trans ?_ hmask.symm
  simp only [Hdr0.ofWord, BitVec.toNat_ofNat]
  omega

theorem ExtCtrl.word_ofWord (v : Word) : (ExtCtrl.ofWord v).word = v &&& 0x0001FFFF := by
  have hmask : v.toNat &&& 0x0001FFFF = v.toNat % 2 ^ 17 := Nat.and_two_pow_sub_one_eq_mod _ 17
  have hbit : (decide (v.toNat / 2 ^ 16 % 2 = 1)).toNat = v.toNat / 2 ^ 16 % 2 := by
    obtain h | h := Nat.mod_two_eq_zero_or_one (v.toNat / 2 ^ 16) <;> rw [h] <;> rfl
  apply BitVec.eq_of_toNat_eq
  rw [ExtCtrl.word_toNat, BitVec.toNat_and]
  refine Eq.trans ?_ hmask.symm
  simp only [ExtCtrl.ofWord, BitVec.toNat_ofNat, hbit]
  omega

/-- ARG0 and the registers of the store's header: what the host writes there stays, but for reserved bits. -/
theorem State.readReg_writeReg_same (s : State) {n : Nat} (v : Word) (hn : n = 2 ∨ (10 ≤ n ∧ n ≤ 15)) :
    (s.writeReg n v).readReg n = v &&& (if n = 10 then 0x00FFFFFF else if n = 13 then 0x0001FFFF else 0xFFFFFFFF) := by
  have hall : v = v &&& 0xFFFFFFFF := BitVec.and_allOnes.symm
  obtain rfl | rfl | hplain : n = 10 ∨ n = 13 ∨ n = 2 ∨ n = 11 ∨ n = 12 ∨ n = 14 ∨ n = 15 := by omega
  · exact Hdr0.word_ofWord v
  · exact ExtCtrl.word_ofWord v
  · obtain rfl | rfl | rfl | rfl | rfl := hplain <;> exact hall

/-- The numbers of the register map (10_state.md R20). -/
theorem register_number_cases {n : Nat} (h : ¬ 16 ≤ n) :
    n = 0 ∨ n = 1 ∨ n = 2 ∨ n = 3 ∨ n = 4 ∨ n = 5 ∨ n = 6 ∨ n = 7 ∨ n = 8 ∨ n = 9 ∨ n = 10 ∨ n = 11 ∨ n = 12 ∨ n = 13 ∨
      n = 14 ∨ n = 15 := by
  omega

/-- Each of them is a field of its own. -/
theorem State.readReg_writeReg_other (s : State) {n m : Nat} (v : Word) (hn : n = 2 ∨ (10 ≤ n ∧ n ≤ 15)) (hm : m ≠ n) :
    (s.writeReg n v).readReg m = s.readReg m := by
  by_cases hres : 16 ≤ m
  · rw [State.readReg_of_reserved _ hres, State.readReg_of_reserved _ hres]
  · obtain rfl | rfl | rfl | rfl | rfl | rfl | rfl : n = 2 ∨ n = 10 ∨ n = 11 ∨ n = 12 ∨ n = 13 ∨ n = 14 ∨ n = 15 := by omega
    all_goals
      obtain rfl | rfl | rfl | rfl | rfl | rfl | rfl | rfl | rfl | rfl | rfl | rfl | rfl | rfl | rfl | rfl :=
        register_number_cases hres
      any_goals rfl
      exact absurd rfl hm

/-- Settles O50: the write reaches one register and, of the fields that are none, nothing. -/
theorem headerRegistersReadBackWhatWasWritten : Obligations.HeaderRegistersReadBackWhatWasWritten := by
  intro s n v hn hb h
  have hcmd : n ≠ 0 := by omega
  have hframe := s.advanceHost.writeReg_frame n v
  exact ⟨_, step_of_writeReg hb hcmd h, State.readReg_writeReg_same _ v hn, fun m hm => State.readReg_writeReg_other _ v hn hm,
    (congrArg State.frames hframe :), (congrArg State.inMem hframe :), (congrArg State.outMem hframe :),
    (congrArg State.coutMem hframe :)⟩

/-! ### The reset signal -/

theorem State.readReg_hostReset (s : State) (n : Nat) : s.hostReset.readReg n = 0 := by
  by_cases hres : 16 ≤ n
  · exact State.readReg_of_reserved _ hres
  · obtain rfl | rfl | rfl | rfl | rfl | rfl | rfl | rfl | rfl | rfl | rfl | rfl | rfl | rfl | rfl | rfl :=
      register_number_cases hres
    all_goals rfl

/-- Settles O42: the signal reaches the block, busy or not, and leaves every field at its reset value. -/
theorem resetSignalClearsTheBlock : Obligations.ResetSignalClearsTheBlock := by
  intro s h
  have hstep : step s = .next s.advanceHost.hostReset := by rw [step_of_some h, State.access_resetSignal]
  exact ⟨_, hstep, State.readReg_hostReset _, rfl, rfl, fun a => ⟨rfl, rfl, rfl⟩⟩

end Sys2Proof.Machine
end

section
/-!
PROOFS. The other host accesses: the memories (20_memory.md R60 to R63, R71), the store operations (10_state.md R41), the pseudo-operations (30_encoding.md R98),
and what a busy block and an idle one do (70_reset_and_hazards.md R291, R300).
-/

namespace Sys2Proof.Machine

open Sys2Proof.Spec

/-! ### IN -/

theorem State.inByteRead_advanceHost (s : State) (a : Nat) : s.advanceHost.inByteRead a = s.inByteRead a := rfl

/-- A host read of an address IN has shows the host its byte. -/
theorem step_of_readIn {s : State} {a : Nat} (hb : s.status.busy = false) (h : s.nextAccess = some (.readIn a))
    (ha : a < s.cfg.inCap ∨ a < s.inLen.toNat) : step s = .next (s.advanceHost.hostSees (.byte (s.inByteRead a))) := by
  rw [step_of_idle hb h, State.perform, State.hostReadIn_of_lt (s := s.advanceHost) ha, State.inByteRead_advanceHost]

theorem step_of_writeIn {s : State} {a : Nat} {b : Byte} (hb : s.status.busy = false) (h : s.nextAccess = some (.writeIn a b)) :
    step s = .next (s.advanceHost.hostWriteIn a b) := by
  rw [step_of_idle hb h, State.perform]

/-- A listed cell is read as it is listed. -/
theorem State.inByte_of_cell {s : State} {a : Nat} {b : Byte} (h : Memory.cell? s.inMem a = some b) : s.inByte a = b := by
  rw [State.inByte, h, Option.getD_some]

/-- A cell that is listed alike is read alike, as long as no reset comes between. -/
theorem State.inByte_of_cell_eq {s t : State} {a : Nat} (h : Memory.cell? t.inMem a = Memory.cell? s.inMem a)
    (hr : t.resets = s.resets) : t.inByte a = s.inByte a := by
  rw [State.inByte, State.inByte, h, hr]

theorem State.hostWriteIn_of_lt {s : State} {a : Nat} (b : Byte) (h : a < s.cfg.inCap) :
    s.hostWriteIn a b = { s with inMem := Memory.set s.inMem a b } := if_pos h

theorem State.hostWriteIn_of_ge {s : State} {a : Nat} (b : Byte) (h : s.cfg.inCap ≤ a) : s.hostWriteIn a b = s :=
  if_neg (Nat.not_lt.2 h)

/-- Settles O47: what the read returns depends on IN, IN_LEN and the resets alone. -/
theorem hostReadsOfInputAreIdempotent : Obligations.HostReadsOfInputAreIdempotent := by
  intro s a hb h ha
  refine ⟨s.inByteRead a, step_of_readIn hb h (.inl ha), fun u hmem hlen hresets hcfg hub hu => ?_⟩
  rw [step_of_readIn hub hu (.inl (hcfg ▸ ha)), State.inByteRead_congr hmem hlen hresets, State.hostSees]

/-- Settles O53: a write sets one cell or nothing, and a read below IN_LEN is of the cell itself. -/
theorem hostAccessesOfInput : Obligations.HostAccessesOfInput := by
  intro s a b hb
  refine ⟨fun h ha => ?write, fun h ha => ?ignored, fun h ha => ?read⟩
  case write =>
    have hstep := (step_of_writeIn hb h).trans (congrArg _ (s.advanceHost.hostWriteIn_of_lt b ha))
    refine ⟨_, hstep, ?_, fun c hc => ?_, rfl⟩
    · exact State.inByte_of_cell (Memory.cell?_set_same s.inMem a b)
    · exact State.inByte_of_cell_eq (Memory.cell?_set_other s.inMem b hc) rfl
  case ignored => rw [step_of_writeIn hb h, State.hostWriteIn_of_ge (s := s.advanceHost) b ha]
  case read => rw [step_of_readIn hb h (.inr ha), State.inByteRead_of_lt ha, State.hostSees]

/-! ### OUT and COUT -/

theorem State.hostReadOut_of_written {s : State} {a : Nat} {b : Byte} (ha : a < s.outLen.toNat) (hcell : s.outByte? a = some b) :
    s.hostReadOut a = .next (s.hostSees (.byte b)) := by
  rw [State.outByte?] at hcell
  rw [State.hostReadOut, if_pos ha, hcell]

theorem State.hostReadCout_of_written {s : State} {a : Nat} {u : CodeUnit} (ha : a < s.coutLen.toNat)
    (hcell : s.coutUnit? a = some u) : s.hostReadCout a = .next (s.hostSees (.unit u)) := by
  rw [State.coutUnit?] at hcell
  rw [State.hostReadCout, if_pos ha, hcell]

/-- Settles O54: below the length the cell's value is shown. -/
theorem hostReadsOfOutputs : Obligations.HostReadsOfOutputs := fun _ _ hb =>
  ⟨fun _ h ha hcell => (step_of_idle hb h).trans (State.hostReadOut_of_written ha hcell),
    fun _ h ha hcell => (step_of_idle hb h).trans (State.hostReadCout_of_written ha hcell)⟩

/-! ### The store operations -/

section
variable {s : State} {k : Nat} {f : Frame} {id flags data : List Byte} {term : Byte}

theorem State.hostReadFrame_of_some (h : s.frames[k]? = some f) : s.hostReadFrame k = .next (s.hostSees (.frame f)) := by
  rw [State.hostReadFrame, h]

theorem State.hostReadFrame_of_ge (h : s.frames.length ≤ k) : s.hostReadFrame k = .refused .storeOperationCondition := by
  rw [State.hostReadFrame, List.getElem?_eq_none h]

theorem State.hostWriteFrame_of_fits (hf : s.hostFrame? id flags data term = some f) (hk : k < s.frames.length) :
    s.hostWriteFrame k id flags data term = .next { s with frames := s.frames.set k f } := by
  rw [State.hostWriteFrame, hf]
  exact if_pos hk

theorem State.hostAppendFrame_of_fits (hf : s.hostFrame? id flags data term = some f) (hn : s.frames.length < s.cfg.maxFrames) :
    s.hostAppendFrame id flags data term = .next { s with frames := s.frames ++ [f] } := by
  rw [State.hostAppendFrame, hf]
  exact if_pos hn

/-- Where one of HostWriteFrame's conditions fails there is no such move. -/
theorem State.hostWriteFrame_refused
    (h : s.frames.length ≤ k ∨ id.length ≠ 4 ∨ flags.length ≠ 2 ∨ s.cfg.maxPayload < data.length) :
    s.hostWriteFrame k id flags data term = .refused .storeOperationCondition := by
  rw [State.hostWriteFrame]
  obtain hk | hrecord := h
  · split
    · exact if_neg (Nat.not_lt.2 hk)
    · rfl
  · rw [State.hostFrame?_eq_none hrecord]

theorem State.hostAppendFrame_refused
    (h : s.cfg.maxFrames ≤ s.frames.length ∨ id.length ≠ 4 ∨ flags.length ≠ 2 ∨ s.cfg.maxPayload < data.length) :
    s.hostAppendFrame id flags data term = .refused .storeOperationCondition := by
  rw [State.hostAppendFrame]
  obtain hn | hrecord := h
  · split
    · exact if_neg (Nat.not_lt.2 hn)
    · rfl
  · rw [State.hostFrame?_eq_none hrecord]

end

/-- Settles O52, operation by operation. -/
theorem hostStoreOperations : Obligations.HostStoreOperations := by
  intro s k id flags data idL flagsL term hb
  have hfits (hdata : data.length ≤ s.cfg.maxPayload) := State.hostFrame?_of_fits (s := s.advanceHost) id flags term hdata
  refine ⟨fun f h hf => ?read, fun h hk hdata => ?write, fun h hn hdata => ?append, fun h hk => ?readRefused,
    fun h hbad => ?writeRefused, fun h hbad => ?appendRefused⟩
  case read => exact (step_of_idle hb h).trans (State.hostReadFrame_of_some hf)
  case write =>
    refine ⟨_, (step_of_idle hb h).trans (State.hostWriteFrame_of_fits (hfits hdata) hk), List.length_set,
      List.getElem?_set_self hk, fun j hj => List.getElem?_set_ne hj.symm, rfl⟩
  case append => exact (step_of_idle hb h).trans (State.hostAppendFrame_of_fits (hfits hdata) hn)
  case readRefused => exact (step_of_idle hb h).trans (State.hostReadFrame_of_ge hk)
  case writeRefused => exact (step_of_idle hb h).trans (State.hostWriteFrame_refused hbad)
  case appendRefused => exact (step_of_idle hb h).trans (State.hostAppendFrame_refused hbad)

/-! ### The pseudo-operations -/

theorem State.performAll_of_next {s t : State} {a : HostAccess} {as : List HostAccess} (h : s.access a = .next t) :
    s.performAll (a :: as) = t.performAll as := by
  rw [State.performAll, h]

theorem State.performAll_append {s t : State} {as : List HostAccess} (bs : List HostAccess) (h : s.performAll as = some t) :
    s.performAll (as ++ bs) = t.performAll bs := by
  induction as generalizing s with
  | nil => exact Option.some.inj h ▸ rfl
  | cons a as ih =>
    cases ha : s.access a with
    | next u =>
      rw [State.performAll_of_next ha] at h
      rw [List.cons_append, State.performAll_of_next ha]
      exact ih h
    | fault r =>
      rw [State.performAll, ha] at h
      cases h
    | refused r =>
      rw [State.performAll, ha] at h
      cases h

/-- The byte writes of LOADIN, all below IN_CAP, are one run of cells. -/
theorem State.performAll_loadBytes {s : State} {a : Nat} {bs : List Byte} (hb : s.status.busy = false)
    (hcap : a + bs.length ≤ s.cfg.inCap) :
    s.performAll (loadBytes a bs) = some { s with inMem := Memory.setRun s.inMem a bs } := by
  induction bs generalizing s a with
  | nil => rfl
  | cons b bs ih =>
    rw [List.length_cons] at hcap
    have hwrite : s.access (.writeIn a b) = .next { s with inMem := Memory.set s.inMem a b } := by
      rw [State.access_of_idle hb, State.perform, State.hostWriteIn_of_lt b (by omega)]
    have hrest : a + 1 + bs.length ≤ s.cfg.inCap := by omega
    rw [loadBytes, State.performAll_of_next hwrite]
    exact ih hb hrest

/-- One register write that issues no command, as a list of accesses. -/
theorem State.performAll_writeReg {s : State} {n : Nat} (v : Word) (hb : s.status.busy = false) (hn : n ≠ 0) :
    s.performAll [.writeReg n v] = some (s.writeReg n v) := by
  have hwrite : s.access (.writeReg n v) = .next (s.writeReg n v) := by
    rw [State.access_of_idle hb, State.perform, if_neg hn]
  rw [State.performAll_of_next hwrite, State.performAll]

/-- LOADIN, whose bytes lie below IN_CAP: a run of cells, and then the clamped write of IN_LEN. -/
theorem State.performAll_loadIn {s : State} {a : Nat} {bs : List Byte} (hb : s.status.busy = false)
    (hcap : a + bs.length ≤ s.cfg.inCap) :
    s.performAll (loadIn a bs) =
      some (({ s with inMem := Memory.setRun s.inMem a bs } : State).writeInLen (BitVec.ofNat 32 (a + bs.length))) := by
  have hloaded : ({ s with inMem := Memory.setRun s.inMem a bs } : State).status.busy = false := hb
  rw [loadIn, State.performAll_append _ (State.performAll_loadBytes hb hcap),
    State.performAll_writeReg (n := regInLen) _ hloaded (by decide)]
  rfl

theorem State.performAll_issueCmd {s t : State} {i : Instr} (hb : s.status.busy = false) (hi : i.WellFormed)
    (h : exec i { s with cmd := encode i } = .next t) : s.performAll (issueCmd i) = some t := by
  have hissue : s.access (.writeReg 0 (encode i)) = .next t := by
    rw [State.access_of_idle hb, State.perform, if_pos rfl, State.issue_of_ok s (encodedCommandsDecodeBack i hi), h]
  rw [issueCmd, State.performAll_of_next hissue, State.performAll]

/-- Settles O55, pseudo-operation by pseudo-operation. -/
theorem pseudoOperationsExpandToAccesses : Obligations.PseudoOperationsExpandToAccesses := by
  intro s hb
  refine ⟨fun a bs hc hcap => ?loadIn, ?clrOut, fun i t hi h => State.performAll_issueCmd hb hi h⟩
  case loadIn =>
    have hcap32 := hc.inCap_le
    have hv : (BitVec.ofNat 32 (a + bs.length)).toNat = a + bs.length := toNat_ofNat_of_lt (by omega)
    have hmin : min (a + bs.length) s.cfg.inCap = a + bs.length := Nat.min_eq_left hcap
    refine ⟨_, State.performAll_loadIn hb hcap, ?length, ?pointer, fun j hj => ?bytes, fun b hout => ?rest, rfl⟩
    case length =>
      rw [State.writeInLen, hv, hmin]
      exact hv
    case pointer =>
      rw [State.writeInLen, hv, hmin]
      exact toNat_ofNat_of_lt (by omega)
    case bytes => exact State.inByte_of_cell (Memory.cell?_setRun_inside s.inMem a bs j _ (List.getElem?_eq_getElem hj))
    case rest => exact State.inByte_of_cell_eq (Memory.cell?_setRun_outside s.inMem a bs b hout) rfl
  case clrOut =>
    rw [clrOut, State.performAll_writeReg _ hb (by decide)]
    have hzero : s.writeOutLen 0 = { s with outLen := 0 } := if_pos (Nat.zero_le _)
    exact congrArg some hzero

/-! ### BRERR, the busy block and the idle one -/

/-- Settles O58: the branch is the host's, and STATUS is all it reads. -/
theorem brerrBranchesOnTheErrorCode : Obligations.BrerrBranchesOnTheErrorCode := by
  intro s label hb h
  have hstep : step s = .next (s.advanceHost.hostBrErr label) := by rw [step_of_idle hb h, State.perform]
  rw [State.hostBrErr_eq] at hstep
  exact ⟨_, hstep, rfl, rfl⟩

/-- Settles O56: the check of BUSY comes before the access, and lets the reset signal alone through. -/
theorem noHostAccessWhileBusy : Obligations.NoHostAccessWhileBusy := by
  intro s a hbusy h
  refine ⟨fun ha => ?_, fun ha => ⟨s.advanceHost.hostReset, ?_⟩⟩
  · rw [step_of_some h, State.access_of_busy (s := s.advanceHost) hbusy ha]
  · rw [step_of_some h, ha, State.access_resetSignal]

/-- Settles O57: at the end of the listing there is no access to perform. -/
theorem idleBlockHoldsItsState : Obligations.IdleBlockHoldsItsState := fun _ => step_of_none

end Sys2Proof.Machine
end
